-- ==== Sys2Proof/Word.lean ====
section
/-! DEFINITION. The engine's one unit of data: the byte (spec/00_scope.md section 4). -/

namespace Sys2Proof

/-- A byte, "an unsigned integer 0 .. 255" (00_scope.md section 4); bit 0 is the least significant. -/
abbrev Byte := BitVec 8

end Sys2Proof
end

