-- ==== Sys2Proof/Config.lean ====
section
/-! DEFINITION. What an implementation fixes: the parameters of 00_scope.md rules R5 to R7, which the
spec says "the model takes as arguments", and the platform's mapping of 20_memory.md R35.
None of it is part of State (10_state.md R10, R29). The default VALUES stand in Decode.lean. -/

namespace Sys2Proof

/-- `BLOCK_TOKENS` (R5): "one byte per block of up to 8 following tokens"; not a parameter. -/
abbrev blockTokens : Nat := 8

/-- `CTRL_FIRST` (R7, R54): which bit of a control byte classifies the first token of its block. -/
inductive BitOrder where
  | lsb
  | msb
  deriving DecidableEq, Repr

/-- `MATCH_BITS` and `MATCH_MIN` (R7), the two parameters of the default `RefDecode` (R57, R82). -/
structure RefLayout where
  matchBits : Nat
  matchMin : Nat
  matchBits_pos : 1 ≤ matchBits
  matchBits_le : matchBits ≤ 15
  deriving DecidableEq, Repr

/-- The parameters of one engine. `refFlag` is `REF_FLAG` with `true` for 1; `refDecode` is the total
function `RefDecode` from the token's bytes in stream order to `(distance, length)`; `locate handle i`
is the platform's location of index `i` of the buffer a handle names (20_memory.md R35; log 11). -/
structure Params where
  ctrlFirst : BitOrder
  refFlag : Bool
  refBytes : Nat
  refBytes_pos : 1 ≤ refBytes
  refDecode : List Byte → Nat × Nat
  locate : Nat → Nat → Nat

/-- `LEN_W` and `PTR_W` (R6), OPEN: integers, at least 1. No rule depends on them but through the
ranges `0 .. 2^LEN_W - 1` and `0 .. 2^PTR_W - 1`, so only range statements mention them (log 1). -/
structure Widths where
  lenW : Nat
  ptrW : Nat
  lenW_pos : 1 ≤ lenW
  ptrW_pos : 1 ≤ ptrW
  deriving DecidableEq, Repr

end Sys2Proof
end

