-- ==== Sys2Proof/Syntax.lean ====
section
/-! DEFINITION. The stream items (30_encoding.md R53 to R60), one constructor per row of
spec/opcode_table.json. COPY, START and RELEASE "have no encoding in the stream and no row in the
table" (R60); they are micro-steps and host moves of the machine, not items. -/

namespace Sys2Proof

/-- A stream item with its operands. -/
inductive Instr where
  /-- `CTRL` (R54): the control byte, its 8 bits the flag bits. -/
  | ctrl (flags : Byte)
  /-- `LIT` (R55): the data byte itself. -/
  | lit (value : Byte)
  /-- `REF` (R56): the extracted pair (distance, length) of natural numbers, as `RefDecode` gives it. -/
  | ref (distance length : Nat)
  deriving DecidableEq, Repr

/-- The three formats. No item carries its own kind (R59): the sequencer's state selects it (R60). -/
inductive ItemKind where
  | ctrl
  | lit
  | ref
  deriving DecidableEq, Repr

/-- The kind an item is of. -/
def Instr.kind : Instr → ItemKind
  | .ctrl _ => .ctrl
  | .lit _ => .lit
  | .ref _ _ => .ref

/-- A token is a literal or a reference (R53); a control byte is not one. -/
def Instr.isToken : Instr → Bool
  | .ctrl _ => false
  | .lit _ => true
  | .ref _ _ => true

end Sys2Proof
end

