-- ==== Sys2Proof/WellFormed.lean ====
section
/-! DEFINITION. Which items a reference layout can write down (30_encoding.md R57, R58, R68).
Every byte is a legal control byte and a legal literal (R64). Legality of a reference depends on the
machine's state (R64) and is the REF header step's business, so a distance of 0, which the layout can
express and the header step rejects (R84), is well formed here. -/

namespace Sys2Proof

/-- The distance field `OFFF` has `16 - MATCH_BITS` bits (R57). -/
abbrev RefLayout.distanceFits (lay : RefLayout) (distance : Nat) : Prop :=
  distance < 2 ^ (16 - lay.matchBits)

/-- The length field `LENF` has `MATCH_BITS` bits and holds `length - MATCH_MIN` (R57, R58). -/
abbrev RefLayout.lengthFits (lay : RefLayout) (length : Nat) : Prop :=
  lay.matchMin ≤ length ∧ length < lay.matchMin + 2 ^ lay.matchBits

/-- The items that have an encoding under the layout. -/
def Instr.wf (lay : RefLayout) : Instr → Bool
  | .ctrl _ => true
  | .lit _ => true
  | .ref distance length => decide (lay.distanceFits distance) && decide (lay.lengthFits length)

/-- A list of tokens whose references reach only bytes already written, the first token standing at
output position `pos` (R64, R85): what an item list needs for every item to be accepted. -/
def tokensLegal (lay : RefLayout) : Nat → List Instr → Bool
  | _, [] => true
  | _, .ctrl _ :: _ => false
  | pos, .lit _ :: rest => tokensLegal lay (pos + 1) rest
  | pos, .ref d l :: rest =>
    (Instr.ref d l).wf lay && decide (1 ≤ d) && decide (d ≤ pos) && decide (1 ≤ l)
      && tokensLegal lay (pos + l) rest

end Sys2Proof
end

