-- ==== Sys2Proof/Decode.lean ====
section
/-! DEFINITION. From bytes to items and back (30_encoding.md). The decoder takes the kind the sequencer
selected, because "no item carries its own kind or length" (R59); it is total and rejects by name.
The default parameter values of 00_scope.md R7 stand here too (log 3). -/

namespace Sys2Proof

/-- The token `T = b0 ++ b1` of R57, the byte at the lower IN index the more significant; for the two
bytes of a token, `256 * b0 + b1`. -/
def RefLayout.token (bytes : List Byte) : Nat :=
  bytes.foldl (fun t b => 256 * t + b.toNat) 0

/-- The default extractor `RefDecode` (R82) for general `MATCH_BITS = m`, `MATCH_MIN = k`:
`distance = T[15-m : 0]`, unbiased, and `length = T[15 : 16-m] + k`. -/
def RefLayout.extract (lay : RefLayout) (bytes : List Byte) : Nat × Nat :=
  (RefLayout.token bytes % 2 ^ (16 - lay.matchBits),
   RefLayout.token bytes / 2 ^ (16 - lay.matchBits) + lay.matchMin)

/-- `MATCH_BITS = 6`, `MATCH_MIN = 3` (R7). PRESUMED by the spec itself: the layout is
"[from general knowledge, not in source]" (log 3). -/
def conventionalLayout : RefLayout := ⟨6, 3, by decide, by decide⟩

/-- The parameters of an engine whose reference tokens have a given layout: `REF_BYTES = 2` (R7), and
locations "pointer plus index", the source's software mapping (20_memory.md R35; log 11). -/
def RefLayout.params (lay : RefLayout) (ctrlFirst : BitOrder) (refFlag : Bool) : Params where
  ctrlFirst := ctrlFirst
  refFlag := refFlag
  refBytes := 2
  refBytes_pos := by decide
  refDecode := lay.extract
  locate := fun handle index => handle + index

/-- The defaults of R7: `CTRL_FIRST = LSB`, `REF_FLAG = 1`, `REF_BYTES = 2`, the conventional layout.
`exec`, `step` and `decodeTableWord` are the machine at these values (log 3). -/
def params : Params := conventionalLayout.params .lsb true

/-- Why a byte list is no item of the wanted kind. -/
inductive DecodeReject where
  /-- No byte where a control byte or a literal is wanted. -/
  | noByte
  /-- Fewer than `REF_BYTES` bytes where a reference is wanted (R83 reports it as OversizedToken). -/
  | shortToken
  deriving DecidableEq, Repr

/-- The item of the given kind at the front of a byte list, and the bytes after it (R54 to R56). -/
def decode (p : Params) : ItemKind → List Byte → Except DecodeReject (Instr × List Byte)
  | .ctrl, [] => .error .noByte
  | .ctrl, c :: rest => .ok (.ctrl c, rest)
  | .lit, [] => .error .noByte
  | .lit, v :: rest => .ok (.lit v, rest)
  | .ref, bytes =>
    if bytes.length < p.refBytes then .error .shortToken
    else
      .ok (.ref (p.refDecode (bytes.take p.refBytes)).1 (p.refDecode (bytes.take p.refBytes)).2,
        bytes.drop p.refBytes)

/-- How many bytes an item of a kind takes from the stream (R60). -/
def itemBytes (p : Params) : ItemKind → Nat
  | .ctrl => 1
  | .lit => 1
  | .ref => p.refBytes

/-! The encoder (R68): "the inverse of rules R54 to R58", no part of the hardware. -/

/-- The 16-bit token of a reference: `LENF` above `OFFF` (R57). -/
def RefLayout.assemble (lay : RefLayout) (distance length : Nat) : Nat :=
  (length - lay.matchMin) * 2 ^ (16 - lay.matchBits) + distance

/-- The bytes of an item in stream order. -/
def encode (lay : RefLayout) : Instr → List Byte
  | .ctrl c => [c]
  | .lit v => [v]
  | .ref d l => [BitVec.ofNat 8 (lay.assemble d l / 256), BitVec.ofNat 8 (lay.assemble d l)]

/-- The bit position of flag number `k`, and the flag number of bit position `k` (R54): the map is its
own inverse. -/
def flagBit (order : BitOrder) (k : Nat) : Nat :=
  match order with
  | .lsb => k
  | .msb => 7 - k

/-- The control byte of a list of flags in token order, `true` for a reference; a flag that classifies
no token is "encoded as the literal value" (R66, R68). -/
def ctrlByteOf (p : Params) (isRef : List Bool) : Byte :=
  BitVec.ofFnLE fun i : Fin 8 => isRef.getD (flagBit p.ctrlFirst i.val) false == p.refFlag

/-- Blocks of a control byte and up to 8 tokens each (R53), at most `blocks` of them. -/
def encodeBlocks (p : Params) (lay : RefLayout) : (blocks : Nat) → List Instr → List Byte
  | 0, _ => []
  | _ + 1, [] => []
  | n + 1, tok :: toks =>
    ctrlByteOf p (((tok :: toks).take blockTokens).map fun t => t.kind == .ref)
      :: ((tok :: toks).take blockTokens).flatMap (encode lay)
      ++ encodeBlocks p lay n ((tok :: toks).drop blockTokens)

/-- The stream of a list of tokens, with the control bytes placed (R53, R68). -/
def encodeTokens (p : Params) (lay : RefLayout) (toks : List Instr) : List Byte :=
  encodeBlocks p lay toks.length toks

/-! The host's view of the opcode table. All three rows have mask 0, and CTRL and LIT are both one byte
wide, so bits alone cannot tell those two apart (R59, R60); a lone byte is read as the control byte the
first byte of a stream is (R61; log 10). -/

/-- The kind a table row of `nbits` bits is read as (log 10). -/
def tableWordKind (nbits : Nat) : Option ItemKind :=
  match nbits with
  | 8 => some .ctrl
  | 16 => some .ref
  | _ => none

/-- The bytes of a table word in stream order: the table numbers REF as the one 16-bit value
`T = b0 ++ b1`, "the byte at the lower IN index is bits [15:8]". -/
def tableWordBytes (nbits w : Nat) : List Byte :=
  match nbits with
  | 8 => [BitVec.ofNat 8 w]
  | 16 => [BitVec.ofNat 8 (w / 256), BitVec.ofNat 8 w]
  | _ => []

/-- The item the decoder reads from a word of the opcode table. -/
def decodeTableWord (nbits w : Nat) : Option Instr :=
  match tableWordKind nbits with
  | none => none
  | some kind =>
    match decode params kind (tableWordBytes nbits w) with
    | .ok (i, _) => some i
    | .error _ => none

end Sys2Proof
end

