-- ==== Sys2Proof/Machine/State.lean ====
section
/-! DEFINITION. Everything the spec gives the machine, as plain data (10_state.md R10 to R34), and the
reasons a step can stop. `LEN_W`-bit and `PTR_W`-bit registers are naturals with the ranges as an
invariant, which 00_scope.md section 4 allows in so many words (log 1). -/

namespace Sys2Proof.Machine

/-- `PHASE` (R14): the value 3 "is never produced", so the type leaves it out (93 V8). -/
inductive Phase where
  | idle
  | run
  | done
  deriving DecidableEq, Repr

/-- The four failure causes (60_exceptions.md R123). -/
inductive Cause where
  | truncatedInput
  | corruptReference
  | oversizedToken
  | invalidToken
  deriving DecidableEq, Repr

/-- The operands of START (44_host_commands.md R94). -/
structure StartOperands where
  srcBase : Nat
  cmpLen : Nat
  tgtLen : Nat
  dstBase : Nat
  deriving DecidableEq, Repr

/-- One turn of one of the two agents of R10, or a reset (70_reset_and_hazards.md R139). -/
inductive Move where
  /-- The engine takes its next micro-step. -/
  | engine
  /-- The host issues START (R94). -/
  | start (op : StartOperands)
  /-- The host issues RELEASE (R102). -/
  | release
  /-- The host places a compressed stream in IN (R141 step 1). -/
  | loadIn (bytes : List Byte)
  /-- The host writes a byte of the buffer at `dst_base` (20_memory.md R50). -/
  | writeOut (index : Nat) (value : Byte)
  /-- Reset, from outside engine and host (R139). -/
  | reset
  deriving DecidableEq, Repr

/-- A byte memory: cells in strictly rising order of index. An index with no cell has NO VALUE: IN there
has not been supplied, OUT there is "unwritten" (20_memory.md R35, R41; log 5). -/
abbrev Memory := List Host.Cell

/-- The canonical form: indices strictly rising. No cell can equal what an unlisted index reads as,
since that is no value. -/
abbrev Memory.wf (m : Memory) : Prop := m.Pairwise fun x y => x.1 < y.1

/-- The architectural state of one engine (R10), registers 0 to 14 of R27, the two memories of R26, and
the model's own `agenda` (log 7). -/
structure State where
  /-- register 0, `SRC_BASE` (R11) -/
  srcBase : Nat
  /-- register 1, `CMP_LEN` (R12) -/
  cmpLen : Nat
  /-- register 2, `TGT_LEN` (R12) -/
  tgtLen : Nat
  /-- register 3, `DST_BASE` (R11) -/
  dstBase : Nat
  /-- register 4, `PHASE` (R14) -/
  phase : Phase
  /-- register 5, `RES_SUCCESS` (R21): `true` is the byte 0x01, `false` is 0x00 -/
  resSuccess : Bool
  /-- register 6, `RES_SIZE` (R22) -/
  resSize : Nat
  /-- register 7, `RES_DATA` (R23) -/
  resData : Nat
  /-- register 8, `ERR` (R24): `none` is the code 0 -/
  err : Option Cause
  /-- register 9, `IN_POS` (R15) -/
  inPos : Nat
  /-- register 10, `CTRL_IDX` (R16): 0 to 8 -/
  ctrlIdx : Fin 9
  /-- register 11, `CTRL` (R17) -/
  ctrl : Byte
  /-- register 12, `OUT_POS` (R18) -/
  outPos : Nat
  /-- register 13, `COPY_DIST` (R19) -/
  copyDist : Nat
  /-- register 14, `COPY_REM` (R20) -/
  copyRem : Nat
  /-- the memory IN (R26) -/
  inMem : Memory
  /-- the memory OUT (R26) -/
  outMem : Memory
  /-- which agent moves next; empty: the engine, for ever (log 7) -/
  agenda : List Move
  deriving DecidableEq, Repr

/-- After reset (R33): PHASE and the result registers as the spec says; the registers it leaves
"unspecified" at the values START gives them, 0 and `CTRL_IDX = 8` (DESIGN CHOICE, log 4); nothing
listed in either memory (log 5); no move pending (log 7). -/
def State.reset : State where
  srcBase := 0
  cmpLen := 0
  tgtLen := 0
  dstBase := 0
  phase := .idle
  resSuccess := false
  resSize := 0
  resData := 0
  err := none
  inPos := 0
  ctrlIdx := 8
  ctrl := 0
  outPos := 0
  copyDist := 0
  copyRem := 0
  inMem := []
  outMem := []
  agenda := []

/-- Why the machine stops. None of these is a behaviour of the engine: from a state of the invariant
(Safety.lean) no step reaches one. -/
inductive Fault where
  /-- An item was handed to `exec` in a state where its selector in spec/opcode_table.json does not hold;
  raised by the meanings of CTRL, LIT, REF and COPY. Safe: the spec gives the item no effect there (log 9). -/
  | notSelected
  /-- A read of IN at an index at or beyond `CMP_LEN`, or one whose byte nobody supplied (R36, R96 a);
  raised by fetching an item. Safe: the model stops (log 5). -/
  | inByteAbsent
  /-- A read of OUT outside `0 .. OUT_POS-1`, or of a byte this call has not written (R40, R41);
  raised by COPY. Safe: the model stops (log 5). -/
  | outByteUnwritten
  /-- A write of OUT at an index at or beyond `TGT_LEN` (R39); raised by LIT and COPY. Safe: the model
  stops. -/
  | outIndexInvalid
  deriving DecidableEq, Repr

/-- What the model gives no meaning. -/
inductive Refusal where
  /-- An item of the table without a meaning; raised by `exec` only. Safe. -/
  | notModelled (mnemonic : String)
  /-- START whose `cmp_len` bytes of IN are not all there: duty (a) of R96 broken, "a model refuses the
  launch". Safe (log 11). -/
  | launchInputAbsent
  /-- START whose IN and OUT share a location: R46, duty (b) of R96. Safe (log 11). -/
  | launchBuffersOverlap
  /-- START whose OUT shares a location with the OUT another engine owns or holds as a live result, or
  with a running engine's IN, or whose IN shares one with a running engine's OUT (60_exceptions.md R135,
  20_memory.md R52, R96 b); raised by `Platform.step`. Safe (log 16). -/
  | launchSharesBuffer
  /-- START whose stream is not what stands at its locations, by the IN of a running engine or by a live
  result (R96 a, R50); raised by `Platform.step`. Safe (log 18). -/
  | launchInputDisagrees
  /-- A host write of IN while `PHASE = RUN` (20_memory.md R50, 93 V4), of this engine or, in
  `Platform.step`, at a location of a running engine's IN. Safe (log 12, log 16). -/
  | hostWritesInputDuringCall
  /-- A host write of OUT in RUN, or beyond `RES_SIZE` of a live result (R50, R100), or, in
  `Platform.step`, at a location of a running engine's OUT. Safe (log 12, log 16). -/
  | hostTouchesOutput
  deriving DecidableEq, Repr

end Sys2Proof.Machine
end

