-- ==== Sys2Proof/Machine/Flags.lean ====
section
/-! DEFINITION. Flag bits of the control byte (40_sequencer.md R73, R74), the status outputs and
register images (10_state.md R14, R21, R24, R25, R27), and who sees what (R28). The hardware has no
arithmetic condition codes (R31). -/

namespace Sys2Proof.Machine

/-- `Flag(c, k)` (R73): bit `k` of `c` when `CTRL_FIRST = LSB`, bit `7 - k` when it is `MSB`. Asked for
`k` in `0 .. 7` only. -/
def flag (p : Params) (c : Byte) (k : Nat) : Bool :=
  c.getLsbD (flagBit p.ctrlFirst k)

/-- The next token is a reference (R74): `Flag(CTRL, CTRL_IDX) = REF_FLAG`. -/
def nextIsRef (p : Params) (s : State) : Bool :=
  flag p s.ctrl s.ctrlIdx.val == p.refFlag

/-- `busy = (PHASE = RUN)` (R25). -/
def statusBusy (s : State) : Bool := s.phase == .run

/-- `done = (PHASE = DONE)` (R25). -/
def statusDone (s : State) : Bool := s.phase == .done

/-- The numeric encoding of `PHASE` (R14). -/
def Phase.code : Phase → BitVec 2
  | .idle => 0
  | .run => 1
  | .done => 2

/-- The numeric codes of the failure causes (60_exceptions.md R123). -/
def Cause.code : Cause → BitVec 3
  | .truncatedInput => 1
  | .corruptReference => 2
  | .oversizedToken => 3
  | .invalidToken => 4

/-- The image of `ERR` (R24): 0 when there is no failure. -/
def errCode (s : State) : BitVec 3 :=
  match s.err with
  | none => 0
  | some c => c.code

/-- The image of `RES_SUCCESS` (R21): 0x01 or 0x00. -/
def successByte (s : State) : Byte := if s.resSuccess then 1 else 0

/-- The registers under the reference numbers of R27. -/
inductive Reg where
  | srcBase
  | cmpLen
  | tgtLen
  | dstBase
  | phase
  | resSuccess
  | resSize
  | resData
  | err
  | inPos
  | ctrlIdx
  | ctrl
  | outPos
  | copyDist
  | copyRem
  deriving DecidableEq, Repr

/-- The reference number of a register (R27). -/
def Reg.number : Reg → Nat
  | .srcBase => 0
  | .cmpLen => 1
  | .tgtLen => 2
  | .dstBase => 3
  | .phase => 4
  | .resSuccess => 5
  | .resSize => 6
  | .resData => 7
  | .err => 8
  | .inPos => 9
  | .ctrlIdx => 10
  | .ctrl => 11
  | .outPos => 12
  | .copyDist => 13
  | .copyRem => 14

/-- The width column of R27. -/
def Reg.width (w : Widths) : Reg → Nat
  | .srcBase => w.ptrW
  | .cmpLen => w.lenW
  | .tgtLen => w.lenW
  | .dstBase => w.ptrW
  | .phase => 2
  | .resSuccess => 8
  | .resSize => w.lenW
  | .resData => w.ptrW
  | .err => 3
  | .inPos => w.lenW
  | .ctrlIdx => 4
  | .ctrl => 8
  | .outPos => w.lenW
  | .copyDist => w.lenW
  | .copyRem => w.lenW

/-- The value of a register as an unsigned number. -/
def readReg (s : State) : Reg → Nat
  | .srcBase => s.srcBase
  | .cmpLen => s.cmpLen
  | .tgtLen => s.tgtLen
  | .dstBase => s.dstBase
  | .phase => s.phase.code.toNat
  | .resSuccess => (successByte s).toNat
  | .resSize => s.resSize
  | .resData => s.resData
  | .err => (errCode s).toNat
  | .inPos => s.inPos
  | .ctrlIdx => s.ctrlIdx.val
  | .ctrl => s.ctrl.toNat
  | .outPos => s.outPos
  | .copyDist => s.copyDist
  | .copyRem => s.copyRem

/-- The "host access: read" entries of R27; the working registers "are not visible to the host" (R28). -/
def Reg.hostReads : Reg → Bool
  | .phase => true
  | .resSuccess => true
  | .resSize => true
  | .resData => true
  | .err => true
  | .srcBase => false
  | .cmpLen => false
  | .tgtLen => false
  | .dstBase => false
  | .inPos => false
  | .ctrlIdx => false
  | .ctrl => false
  | .outPos => false
  | .copyDist => false
  | .copyRem => false

/-- What a host read of a register gives (R27, R28, R93): no value where the host has no read access. -/
def hostReadReg (s : State) (r : Reg) : Option Nat :=
  if r.hostReads then some (readReg s r) else none

end Sys2Proof.Machine
end

