-- ==== Sys2Proof/Machine/Ops.lean ====
section
/-! DEFINITION. The operations the micro-steps share: reading and writing a byte memory, writing the
next output byte, and the two ways a call ends. TAKING A FAILURE is `raise`; the spec has no return from
one (60_exceptions.md R130): "the only way on is a new START". -/

namespace Sys2Proof.Machine

/-- The byte at an index, if there is one. -/
def Memory.read : Memory → Nat → Option Byte
  | [], _ => none
  | (a, b) :: rest, i => if a = i then some b else Memory.read rest i

/-- Write one byte, keeping the indices strictly rising. -/
def Memory.write : Memory → Nat → Byte → Memory
  | [], i, v => [(i, v)]
  | (a, b) :: rest, i, v =>
    if i < a then (i, v) :: (a, b) :: rest
    else if a = i then (i, v) :: rest
    else (a, b) :: Memory.write rest i v

/-- A byte list as a memory, its first byte at index `start`. -/
def Memory.place : (start : Nat) → List Byte → Memory
  | _, [] => []
  | n, b :: bytes => (n, b) :: Memory.place (n + 1) bytes

/-- A byte sequence as the contents of a buffer: its first byte at index 0 (20_memory.md R45). -/
def Memory.ofBytes (bytes : List Byte) : Memory := Memory.place 0 bytes

/-- Write a list of bytes from an index on. -/
def placeAt : Memory → (start : Nat) → List Byte → Memory
  | m, _, [] => m
  | m, i, b :: bytes => placeAt (m.write i b) (i + 1) bytes

/-- `MemRead(IN, i, 1)` (R36): defined only for `i < CMP_LEN`. -/
def inRead (s : State) (i : Nat) : Option Byte :=
  if i < s.cmpLen then s.inMem.read i else none

/-- `MemRead(OUT, j, 1)` (R40): used only for `j < OUT_POS`. -/
def outRead (s : State) (j : Nat) : Option Byte :=
  if j < s.outPos then s.outMem.read j else none

/-- `MemWrite(OUT, OUT_POS, 1, v)`, "followed in the same micro-step by `OUT_POS <- OUT_POS + 1`" (R39). -/
def putByte (v : Byte) (s : State) : State :=
  { s with outMem := s.outMem.write s.outPos v, outPos := s.outPos + 1 }

/-- The one way the engine writes OUT, used by LIT and COPY: "only ... with `OUT_POS < TGT_LEN`" (R39). -/
def emit (v : Byte) (s : State) : Except Fault State :=
  if s.outPos < s.tgtLen then .ok (putByte v s) else .error .outIndexInvalid

/-- `finish_success(n)` (44_host_commands.md R97). -/
def finishSuccess (n : Nat) (s : State) : State :=
  { s with resSuccess := true, resSize := n, resData := s.dstBase, err := none, phase := .done }

/-- `raise <Failure>(code)` (60_exceptions.md R126): "Nothing else changes". -/
def raise (c : Cause) (s : State) : State :=
  { s with resSuccess := false, resSize := 0, resData := 0, err := some c, phase := .done }

end Sys2Proof.Machine
end

