-- ==== Sys2Proof/Machine/Operands.lean ====
section
/-! DEFINITION. Where an item's operands come from, and when an item is the selected one: IN[IN_POS]
(CTRL, LIT), IN[IN_POS .. IN_POS + REF_BYTES - 1] (REF), OUT[OUT_POS - COPY_DIST] (COPY). The spec has no
other operand form (20_memory.md R36, R39, R40). -/

namespace Sys2Proof.Machine

/-- The part the three selectors of spec/opcode_table.json share: `PHASE = RUN and COPY_REM = 0 and
CMP_LEN > 0 and OUT_POS < TGT_LEN and IN_POS < CMP_LEN`. -/
def itemWanted (s : State) : Bool :=
  s.phase == .run && s.copyRem == 0 && decide (0 < s.cmpLen) && decide (s.outPos < s.tgtLen)
    && decide (s.inPos < s.cmpLen)

/-- The selector of an item kind (spec/opcode_table.json; 40_sequencer.md R69 tests 4 to 6). -/
def selected (p : Params) : ItemKind → State → Bool
  | .ctrl, s => itemWanted s && s.ctrlIdx == 8
  | .lit, s => itemWanted s && decide (s.ctrlIdx.val < 8) && !nextIsRef p s
  | .ref, s => itemWanted s && decide (s.ctrlIdx.val < 8) && nextIsRef p s

/-- `n` bytes of IN from an index on, in ascending order (R36, R38); none if one of them is absent. -/
def inBytes (s : State) : (start n : Nat) → Option (List Byte)
  | _, 0 => some []
  | i, n + 1 =>
    match inRead s i, inBytes s (i + 1) n with
    | some b, some rest => some (b :: rest)
    | _, _ => none

/-- Fewer than `REF_BYTES` input bytes remain (42_reference.md R83), "made by subtraction so that it
cannot overflow". -/
def tokenCut (p : Params) (s : State) : Bool := decide (s.cmpLen - s.inPos < p.refBytes)

/-- What fetching the selected item gives. -/
inductive Fetched where
  /-- the item, decoded -/
  | item (i : Instr)
  /-- a reference with fewer than `REF_BYTES` bytes left: OversizedToken, no byte read (R83) -/
  | oversized
  /-- a byte of IN that should be there is not (log 5) -/
  | absent
  deriving DecidableEq, Repr

/-- Fetch the selected item at `IN_POS` and decode it. -/
def fetchItem (p : Params) (kind : ItemKind) (s : State) : Fetched :=
  if kind == .ref && tokenCut p s then .oversized
  else
    match inBytes s s.inPos (itemBytes p kind) with
    | none => .absent
    | some bytes =>
      match decode p kind bytes with
      | .ok (i, _) => .item i
      | .error _ => .absent

/-- The byte a COPY micro-step copies: `MemRead(OUT, OUT_POS - COPY_DIST, 1)` where
`1 <= COPY_DIST <= OUT_POS` (R40, R88). -/
def copySource (s : State) : Option Byte :=
  if 1 ≤ s.copyDist ∧ s.copyDist ≤ s.outPos then outRead s (s.outPos - s.copyDist) else none

end Sys2Proof.Machine
end

