-- ==== Sys2Proof/Machine/Copy.lean ====
section
/-! DEFINITION. The COPY micro-operation (43_copy.md R88 to R92), which has no encoding. -/

namespace Sys2Proof.Machine

/-- The writes of a COPY (R88). -/
def byteCopied (v : Byte) (s : State) : State := { putByte v s with copyRem := s.copyRem - 1 }

/-- COPY (R88): one byte, enabled exactly when `PHASE = RUN` and `COPY_REM > 0`. -/
def copyStep (s : State) : Host.Outcome State Fault Refusal :=
  if s.phase = .run ∧ 0 < s.copyRem then
    match copySource s with
    | none => .fault .outByteUnwritten
    | some v =>
      match emit v s with
      | .ok _ => .next (byteCopied v s)
      | .error f => .fault f
  else .fault .notSelected

end Sys2Proof.Machine
end

