-- ==== Sys2Proof/Machine/Ctrl.lean ====
section
/-! DEFINITION. The CTRL item (40_sequencer.md R72). -/

namespace Sys2Proof.Machine

/-- The register writes of a CTRL fetch (R72). -/
def ctrlTaken (c : Byte) (s : State) : State :=
  { s with ctrl := c, inPos := s.inPos + 1, ctrlIdx := 0 }

/-- CTRL fetch (R72): every byte value is accepted. -/
def ctrlFetch (p : Params) (c : Byte) (s : State) : Host.Outcome State Fault Refusal :=
  if selected p .ctrl s then .next (ctrlTaken c s) else .fault .notSelected

/-- CTRL at the default parameters. -/
def execCtrl (c : Byte) (s : State) : Host.Outcome State Fault Refusal := ctrlFetch params c s

end Sys2Proof.Machine
end

