-- ==== Sys2Proof/Machine/HostCommands.lean ====
section
/-! DEFINITION. What acts on the engine from outside: START and RELEASE (44_host_commands.md), reset
(70_reset_and_hazards.md R139), the host's own accesses to the buffers (20_memory.md R50), and what the
host can see (10_state.md R28; 44_host_commands.md R98, R100, R101). -/

namespace Sys2Proof.Machine

/-- Duty (a) of R96: the `cmp_len` bytes of the compressed stream are there to be read. DESIGN CHOICE
(log 18): the bytes reached from `src_base` are those the host placed last (`hostLoadIn`), whatever
handle START names; R35 leaves the mapping from a handle to locations undefined. -/
def inputPresent (s : State) (op : StartOperands) : Bool :=
  (List.range op.cmpLen).all fun i => (s.inMem.read i).isSome

/-- Two buffers, each a handle and a length, name a common location (20_memory.md R35, R46). -/
def buffersMeet (p : Params) (handle₁ len₁ handle₂ len₂ : Nat) : Bool :=
  (List.range len₁).any fun i =>
    (List.range len₂).any fun j => p.locate handle₁ i == p.locate handle₂ j

/-- The launch premises the model can see: duties (a) and (b) of R96 (log 11). -/
def launchRefusal (p : Params) (s : State) (op : StartOperands) : Option Refusal :=
  if inputPresent s op = false then some .launchInputAbsent
  else if buffersMeet p op.srcBase op.cmpLen op.dstBase op.tgtLen then some .launchBuffersOverlap
  else none

/-- The register writes of an effective START (R94). OUT is now the `tgt_len` bytes at `dst_base`, whose
contents are unspecified (10_state.md R34), so no byte of it has a value (log 6). IN is the stream placed
last, whatever `src_base` names (DESIGN CHOICE, log 18). -/
def launch (op : StartOperands) (s : State) : State :=
  { s with
    srcBase := op.srcBase
    cmpLen := op.cmpLen
    tgtLen := op.tgtLen
    dstBase := op.dstBase
    inPos := 0
    outPos := 0
    ctrl := 0
    ctrlIdx := 8
    copyDist := 0
    copyRem := 0
    resSuccess := false
    resSize := 0
    resData := 0
    err := none
    phase := .run
    outMem := [] }

/-- START (R94, R95, R105): effective in IDLE and DONE, ignored in RUN, refused on a broken launch. -/
def start (p : Params) (op : StartOperands) (s : State) : Host.Outcome State Fault Refusal :=
  if s.phase = .run then .next s
  else
    match launchRefusal p s op with
    | some r => .refused r
    | none => .next (launch op s)

/-- The register writes of an effective RELEASE (R102). -/
def dropResult (s : State) : State :=
  { s with resSuccess := false, resSize := 0, resData := 0, err := none, phase := .idle }

/-- The host holds a live successful result: `PHASE = DONE` and `RES_SUCCESS = 0x01` (R102). -/
def liveResult (s : State) : Bool := s.phase == .done && s.resSuccess

/-- RELEASE (R102, R103): effective on a live successful result, "anywhere else ... a no-op". -/
def release (s : State) : State := if liveResult s then dropResult s else s

/-- The reset event (70_reset_and_hazards.md R139): every register as in `State.reset`, OUT without
values, IN untouched; the moves still to come stay (log 15). -/
def resetEngine (s : State) : State :=
  { State.reset with inMem := s.inMem, agenda := s.agenda }

/-- The host places a stream in IN (R141), which it must not do in RUN (20_memory.md R50; log 12). Its
locations are settled by the `src_base` of the next START (DESIGN CHOICE, log 18). -/
def hostLoadIn (bytes : List Byte) (s : State) : Host.Outcome State Fault Refusal :=
  if s.phase = .run then .refused .hostWritesInputDuringCall
  else .next { s with inMem := Memory.ofBytes bytes }

/-- Who owns OUT (R101). -/
inductive Owner where
  /-- the host, as free memory -/
  | hostFree
  /-- the engine, exclusively -/
  | engine
  /-- the host, as the holder of a live result -/
  | hostResult
  deriving DecidableEq, Repr

/-- The owner of OUT by phase (R101). -/
def outOwner (s : State) : Owner :=
  match s.phase with
  | .idle => .hostFree
  | .run => .engine
  | .done => if s.resSuccess then .hostResult else .hostFree

/-- The host may access OUT at `index` (20_memory.md R50; R100): it holds a live result that reaches it. -/
def hostMayAccessOut (s : State) (index : Nat) : Bool := liveResult s && decide (index < s.resSize)

/-- The host writes a byte at `dst_base` (20_memory.md R50): not in RUN; below `RES_SIZE` of a live
result; and where the buffer is "free memory of the host" (R102) the write falls on no state of this
engine, since nothing of it can be observed through this engine before the next START (log 12);
`Platform.settle` says what it does to another engine's live result there (log 16). DESIGN CHOICE
(log 12): in RUN the move is refused at every index, and on a free buffer it goes through at every index,
so at or beyond `TGT_LEN` too, where the location is outside OUT (R35) and R50 says nothing. -/
def hostWriteOut (index : Nat) (value : Byte) (s : State) : Host.Outcome State Fault Refusal :=
  match outOwner s with
  | .engine => .refused .hostTouchesOutput
  | .hostFree => .next s
  | .hostResult =>
    if hostMayAccessOut s index then .next { s with outMem := s.outMem.write index value }
    else .refused .hostTouchesOutput

/-- What a host read of OUT gives: a value only where R100 lets the host read (log 17). -/
def hostReadOut (s : State) (index : Nat) : Option Byte :=
  if hostMayAccessOut s index then s.outMem.read index else none

/-- The outcome as "a two-case value" (R98). -/
inductive CallResult where
  | success (size handle : Nat)
  | failure
  deriving DecidableEq, Repr

/-- The decode result the host reads, valid "only while `PHASE = DONE`" (R98). -/
def callResult (s : State) : Option CallResult :=
  if s.phase = .done then
    some (if s.resSuccess then .success s.resSize s.resData else .failure)
  else none

end Sys2Proof.Machine
end

