-- ==== Sys2Proof/Machine/Lit.lean ====
section
/-! DEFINITION. The LIT item (41_literal.md R79, R80). -/

namespace Sys2Proof.Machine

/-- The writes of a LIT (R79). -/
def literalTaken (v : Byte) (s : State) : State :=
  { putByte v s with inPos := s.inPos + 1, ctrlIdx := s.ctrlIdx + 1 }

/-- LIT (R79): "copy 1 byte from input to the output buffer at the write cursor; advance both cursors by
1." -/
def literal (p : Params) (v : Byte) (s : State) : Host.Outcome State Fault Refusal :=
  if selected p .lit s then
    match emit v s with
    | .ok _ => .next (literalTaken v s)
    | .error f => .fault f
  else .fault .notSelected

/-- LIT at the default parameters. -/
def execLit (v : Byte) (s : State) : Host.Outcome State Fault Refusal := literal params v s

end Sys2Proof.Machine
end

