-- ==== Sys2Proof/Machine/Ref.lean ====
section
/-! DEFINITION. The REF item's header step (42_reference.md R81 to R87). -/

namespace Sys2Proof.Machine

/-- `n = min(length, TGT_LEN - OUT_POS)` (R86). -/
def clippedCount (length : Nat) (s : State) : Nat := min length (s.tgtLen - s.outPos)

/-- The failure of a reference, if any: the three checks "in the order written and the first that holds
decides" (R81, R83, R84, R85; 60_exceptions.md R125). -/
def refFailure (p : Params) (distance length : Nat) (s : State) : Option Cause :=
  if tokenCut p s then some .oversizedToken
  else if length = 0 ∨ distance = 0 then some .invalidToken
  else if s.outPos < distance then some .corruptReference
  else none

/-- The register writes of an accepted REF (R81). -/
def refTaken (p : Params) (distance length : Nat) (s : State) : State :=
  { s with
    copyDist := distance
    copyRem := clippedCount length s
    inPos := s.inPos + p.refBytes
    ctrlIdx := s.ctrlIdx + 1 }

/-- The REF header step (R81). -/
def refHeader (p : Params) (distance length : Nat) (s : State) : Host.Outcome State Fault Refusal :=
  if selected p .ref s then
    match refFailure p distance length s with
    | some cause => .next (raise cause s)
    | none => .next (refTaken p distance length s)
  else .fault .notSelected

/-- REF at the default parameters. -/
def execRef (distance length : Nat) (s : State) : Host.Outcome State Fault Refusal :=
  refHeader params distance length s

end Sys2Proof.Machine
end

