-- ==== Sys2Proof/Machine/Sequencer.lean ====
section
/-! DEFINITION. The sequencer (40_sequencer.md): which micro-step is enabled, and one turn of each agent.
The turn functions take the execution function `ex`, so that `Step.lean` can give them `exec` and the
parametric machine can give them `execWith p`. -/

namespace Sys2Proof.Machine

/-- The engine's next micro-step. -/
inductive MicroStep where
  /-- `PHASE` is not `RUN`: "the engine has no step" (R69) -/
  | none
  /-- `COPY_REM > 0`: "the next micro-step is COPY ... and nothing else" (R69) -/
  | copy
  /-- tests 1 and 2 (R70, R71) -/
  | finish (size : Nat)
  /-- test 3 (R75) -/
  | truncated
  /-- tests 4 to 6 (R72, R79, R81) -/
  | item (kind : ItemKind)
  deriving DecidableEq, Repr

/-- Dispatch (R69): "the first of the following whose condition holds, tested in this order". -/
def dispatch (p : Params) (s : State) : MicroStep :=
  if s.phase ≠ .run then .none
  else if 0 < s.copyRem then .copy
  else if s.cmpLen = 0 then .finish 0
  else if s.outPos = s.tgtLen then .finish s.tgtLen
  else if s.inPos = s.cmpLen then .truncated
  else if s.ctrlIdx = 8 then .item .ctrl
  else if nextIsRef p s then .item .ref
  else .item .lit

/-- One micro-step of the engine. Where it has none, the state stays (log 8). -/
def engineTurnBy (ex : Instr → State → Host.Outcome State Fault Refusal) (p : Params) (s : State) :
    Host.Outcome State Fault Refusal :=
  match dispatch p s with
  | .none => .next s
  | .copy => copyStep s
  | .finish n => .next (finishSuccess n s)
  | .truncated => .next (raise .truncatedInput s)
  | .item kind =>
    match fetchItem p kind s with
    | .item i => ex i s
    | .oversized => .next (raise .oversizedToken s)
    | .absent => .fault .inByteAbsent

/-- One move of the agenda (10_state.md R10: two agents act on the state). -/
def moveBy (ex : Instr → State → Host.Outcome State Fault Refusal) (p : Params) (m : Move) (s : State) :
    Host.Outcome State Fault Refusal :=
  match m with
  | .engine => engineTurnBy ex p s
  | .start op => start p op s
  | .release => .next (release s)
  | .loadIn bytes => hostLoadIn bytes s
  | .writeOut i v => hostWriteOut i v s
  | .reset => .next (resetEngine s)

/-- One step: the agenda's next move, or the engine's turn when the agenda is empty (log 7). -/
def stepBy (ex : Instr → State → Host.Outcome State Fault Refusal) (p : Params) (s : State) :
    Host.Outcome State Fault Refusal :=
  match s.agenda with
  | [] => engineTurnBy ex p s
  | m :: ms => moveBy ex p m { s with agenda := ms }

/-- The meanings of the items over any parameters; `exec` is this at the defaults. -/
def execWith (p : Params) (i : Instr) (s : State) : Host.Outcome State Fault Refusal :=
  match i with
  | .ctrl c => ctrlFetch p c s
  | .lit v => literal p v s
  | .ref d l => refHeader p d l s

/-- The engine's micro-step over any parameters. -/
def engineTurn (p : Params) (s : State) : Host.Outcome State Fault Refusal :=
  engineTurnBy (execWith p) p s

/-- One step over any parameters; `step` is this at the defaults. -/
def stepWith (p : Params) (s : State) : Host.Outcome State Fault Refusal := stepBy (execWith p) p s

/-- `k` micro-steps of the engine, stopping at the first fault or refusal. -/
def engineRun (p : Params) : (k : Nat) → State → Host.Outcome State Fault Refusal
  | 0, s => .next s
  | k + 1, s =>
    match engineTurn p s with
    | .next t => engineRun p k t
    | .fault f => .fault f
    | .refused r => .refused r

/-- The item the engine's next micro-step consumes, if it consumes one: CTRL, LIT, or an accepted REF
(40_sequencer.md R76). -/
def nextItem (p : Params) (s : State) : Option Instr :=
  match dispatch p s with
  | .item kind =>
    match fetchItem p kind s with
    | .item (.ctrl c) => some (.ctrl c)
    | .item (.lit v) => some (.lit v)
    | .item (.ref d l) => if refFailure p d l s = none then some (.ref d l) else none
    | .oversized => none
    | .absent => none
  | .none => none
  | .copy => none
  | .finish _ => none
  | .truncated => none

/-- The items consumed in `k` micro-steps, in stream order (40_sequencer.md R76, R78). -/
def itemsRun (p : Params) : (k : Nat) → State → List Instr
  | 0, _ => []
  | k + 1, s =>
    match engineTurn p s with
    | .next t => (nextItem p s).toList ++ itemsRun p k t
    | .fault _ => []
    | .refused _ => []

end Sys2Proof.Machine
end

