-- ==== Sys2Proof/Machine/Dispatch.lean ====
section
/-! DEFINITION. One arm per stream item (spec/opcode_table.json). -/

namespace Sys2Proof.Machine

def exec (i : Instr) (s : State) : Host.Outcome State Fault Refusal :=
  match i with
  | .ctrl c => Sys2Proof.Machine.execCtrl c s
  | .lit v => Sys2Proof.Machine.execLit v s
  | .ref d l => Sys2Proof.Machine.execRef d l s

end Sys2Proof.Machine
end

