-- ==== Sys2Proof/Machine/Step.lean ====
section
/-! DEFINITION. One step of the machine at the default parameters, and the placing of one item where the
next step fetches it. -/

namespace Sys2Proof.Machine

/-- One step: the next move of the agenda, or the engine's micro-step (40_sequencer.md R69). -/
def step (s : State) : Host.Outcome State Fault Refusal := stepBy exec params s

/-- `s` with one item placed at `IN_POS` and the sequencer in the state that selects it: a running call
at a token boundary with room in OUT, and `CTRL_IDX = 8` for a control byte, or flag 0 of a control byte
of eight reference flags for a reference (30_encoding.md R59, R60; log 10). -/
def State.withFetchWord (s : State) (nbits w : Nat) : State :=
  { s with
    agenda := []
    phase := .run
    copyRem := 0
    cmpLen := s.inPos + (tableWordBytes nbits w).length
    tgtLen := max s.tgtLen (s.outPos + 1)
    inMem := placeAt s.inMem s.inPos (tableWordBytes nbits w)
    ctrl := match tableWordKind nbits with
      | some .ref => ctrlByteOf params (List.replicate blockTokens true)
      | _ => s.ctrl
    ctrlIdx := match tableWordKind nbits with
      | some .ref => 0
      | _ => 8 }

end Sys2Proof.Machine
end

