-- ==== Sys2Proof/Laws/State.lean ====
section
/-! SUPPORT. One lemma per field per named state update, so that no later proof unfolds a record update. -/

namespace Sys2Proof.Machine

/-! `finishSuccess` -/

@[simp] theorem finishSuccess_srcBase (n : Nat) (s : State) : (finishSuccess n s).srcBase = s.srcBase := rfl
@[simp] theorem finishSuccess_cmpLen (n : Nat) (s : State) : (finishSuccess n s).cmpLen = s.cmpLen := rfl
@[simp] theorem finishSuccess_tgtLen (n : Nat) (s : State) : (finishSuccess n s).tgtLen = s.tgtLen := rfl
@[simp] theorem finishSuccess_dstBase (n : Nat) (s : State) : (finishSuccess n s).dstBase = s.dstBase := rfl
@[simp] theorem finishSuccess_phase (n : Nat) (s : State) : (finishSuccess n s).phase = .done := rfl
@[simp] theorem finishSuccess_resSuccess (n : Nat) (s : State) : (finishSuccess n s).resSuccess = true := rfl
@[simp] theorem finishSuccess_resSize (n : Nat) (s : State) : (finishSuccess n s).resSize = n := rfl
@[simp] theorem finishSuccess_resData (n : Nat) (s : State) : (finishSuccess n s).resData = s.dstBase := rfl
@[simp] theorem finishSuccess_err (n : Nat) (s : State) : (finishSuccess n s).err = none := rfl
@[simp] theorem finishSuccess_inPos (n : Nat) (s : State) : (finishSuccess n s).inPos = s.inPos := rfl
@[simp] theorem finishSuccess_ctrlIdx (n : Nat) (s : State) : (finishSuccess n s).ctrlIdx = s.ctrlIdx := rfl
@[simp] theorem finishSuccess_ctrl (n : Nat) (s : State) : (finishSuccess n s).ctrl = s.ctrl := rfl
@[simp] theorem finishSuccess_outPos (n : Nat) (s : State) : (finishSuccess n s).outPos = s.outPos := rfl
@[simp] theorem finishSuccess_copyDist (n : Nat) (s : State) : (finishSuccess n s).copyDist = s.copyDist := rfl
@[simp] theorem finishSuccess_copyRem (n : Nat) (s : State) : (finishSuccess n s).copyRem = s.copyRem := rfl
@[simp] theorem finishSuccess_inMem (n : Nat) (s : State) : (finishSuccess n s).inMem = s.inMem := rfl
@[simp] theorem finishSuccess_outMem (n : Nat) (s : State) : (finishSuccess n s).outMem = s.outMem := rfl
@[simp] theorem finishSuccess_agenda (n : Nat) (s : State) : (finishSuccess n s).agenda = s.agenda := rfl

/-! `raise` -/

@[simp] theorem raise_srcBase (c : Cause) (s : State) : (raise c s).srcBase = s.srcBase := rfl
@[simp] theorem raise_cmpLen (c : Cause) (s : State) : (raise c s).cmpLen = s.cmpLen := rfl
@[simp] theorem raise_tgtLen (c : Cause) (s : State) : (raise c s).tgtLen = s.tgtLen := rfl
@[simp] theorem raise_dstBase (c : Cause) (s : State) : (raise c s).dstBase = s.dstBase := rfl
@[simp] theorem raise_phase (c : Cause) (s : State) : (raise c s).phase = .done := rfl
@[simp] theorem raise_resSuccess (c : Cause) (s : State) : (raise c s).resSuccess = false := rfl
@[simp] theorem raise_resSize (c : Cause) (s : State) : (raise c s).resSize = 0 := rfl
@[simp] theorem raise_resData (c : Cause) (s : State) : (raise c s).resData = 0 := rfl
@[simp] theorem raise_err (c : Cause) (s : State) : (raise c s).err = some c := rfl
@[simp] theorem raise_inPos (c : Cause) (s : State) : (raise c s).inPos = s.inPos := rfl
@[simp] theorem raise_ctrlIdx (c : Cause) (s : State) : (raise c s).ctrlIdx = s.ctrlIdx := rfl
@[simp] theorem raise_ctrl (c : Cause) (s : State) : (raise c s).ctrl = s.ctrl := rfl
@[simp] theorem raise_outPos (c : Cause) (s : State) : (raise c s).outPos = s.outPos := rfl
@[simp] theorem raise_copyDist (c : Cause) (s : State) : (raise c s).copyDist = s.copyDist := rfl
@[simp] theorem raise_copyRem (c : Cause) (s : State) : (raise c s).copyRem = s.copyRem := rfl
@[simp] theorem raise_inMem (c : Cause) (s : State) : (raise c s).inMem = s.inMem := rfl
@[simp] theorem raise_outMem (c : Cause) (s : State) : (raise c s).outMem = s.outMem := rfl
@[simp] theorem raise_agenda (c : Cause) (s : State) : (raise c s).agenda = s.agenda := rfl

/-! `putByte` -/

@[simp] theorem putByte_srcBase (v : Byte) (s : State) : (putByte v s).srcBase = s.srcBase := rfl
@[simp] theorem putByte_cmpLen (v : Byte) (s : State) : (putByte v s).cmpLen = s.cmpLen := rfl
@[simp] theorem putByte_tgtLen (v : Byte) (s : State) : (putByte v s).tgtLen = s.tgtLen := rfl
@[simp] theorem putByte_dstBase (v : Byte) (s : State) : (putByte v s).dstBase = s.dstBase := rfl
@[simp] theorem putByte_phase (v : Byte) (s : State) : (putByte v s).phase = s.phase := rfl
@[simp] theorem putByte_resSuccess (v : Byte) (s : State) : (putByte v s).resSuccess = s.resSuccess := rfl
@[simp] theorem putByte_resSize (v : Byte) (s : State) : (putByte v s).resSize = s.resSize := rfl
@[simp] theorem putByte_resData (v : Byte) (s : State) : (putByte v s).resData = s.resData := rfl
@[simp] theorem putByte_err (v : Byte) (s : State) : (putByte v s).err = s.err := rfl
@[simp] theorem putByte_inPos (v : Byte) (s : State) : (putByte v s).inPos = s.inPos := rfl
@[simp] theorem putByte_ctrlIdx (v : Byte) (s : State) : (putByte v s).ctrlIdx = s.ctrlIdx := rfl
@[simp] theorem putByte_ctrl (v : Byte) (s : State) : (putByte v s).ctrl = s.ctrl := rfl
@[simp] theorem putByte_outPos (v : Byte) (s : State) : (putByte v s).outPos = s.outPos + 1 := rfl
@[simp] theorem putByte_copyDist (v : Byte) (s : State) : (putByte v s).copyDist = s.copyDist := rfl
@[simp] theorem putByte_copyRem (v : Byte) (s : State) : (putByte v s).copyRem = s.copyRem := rfl
@[simp] theorem putByte_inMem (v : Byte) (s : State) : (putByte v s).inMem = s.inMem := rfl
@[simp] theorem putByte_outMem (v : Byte) (s : State) : (putByte v s).outMem = s.outMem.write s.outPos v := rfl
@[simp] theorem putByte_agenda (v : Byte) (s : State) : (putByte v s).agenda = s.agenda := rfl

/-! `launch` -/

@[simp] theorem launch_srcBase (op : StartOperands) (s : State) : (launch op s).srcBase = op.srcBase := rfl
@[simp] theorem launch_cmpLen (op : StartOperands) (s : State) : (launch op s).cmpLen = op.cmpLen := rfl
@[simp] theorem launch_tgtLen (op : StartOperands) (s : State) : (launch op s).tgtLen = op.tgtLen := rfl
@[simp] theorem launch_dstBase (op : StartOperands) (s : State) : (launch op s).dstBase = op.dstBase := rfl
@[simp] theorem launch_phase (op : StartOperands) (s : State) : (launch op s).phase = .run := rfl
@[simp] theorem launch_resSuccess (op : StartOperands) (s : State) : (launch op s).resSuccess = false := rfl
@[simp] theorem launch_resSize (op : StartOperands) (s : State) : (launch op s).resSize = 0 := rfl
@[simp] theorem launch_resData (op : StartOperands) (s : State) : (launch op s).resData = 0 := rfl
@[simp] theorem launch_err (op : StartOperands) (s : State) : (launch op s).err = none := rfl
@[simp] theorem launch_inPos (op : StartOperands) (s : State) : (launch op s).inPos = 0 := rfl
@[simp] theorem launch_ctrlIdx (op : StartOperands) (s : State) : (launch op s).ctrlIdx = 8 := rfl
@[simp] theorem launch_ctrl (op : StartOperands) (s : State) : (launch op s).ctrl = 0 := rfl
@[simp] theorem launch_outPos (op : StartOperands) (s : State) : (launch op s).outPos = 0 := rfl
@[simp] theorem launch_copyDist (op : StartOperands) (s : State) : (launch op s).copyDist = 0 := rfl
@[simp] theorem launch_copyRem (op : StartOperands) (s : State) : (launch op s).copyRem = 0 := rfl
@[simp] theorem launch_inMem (op : StartOperands) (s : State) : (launch op s).inMem = s.inMem := rfl
@[simp] theorem launch_outMem (op : StartOperands) (s : State) : (launch op s).outMem = [] := rfl
@[simp] theorem launch_agenda (op : StartOperands) (s : State) : (launch op s).agenda = s.agenda := rfl

/-! `dropResult` -/

@[simp] theorem dropResult_srcBase (s : State) : (dropResult s).srcBase = s.srcBase := rfl
@[simp] theorem dropResult_cmpLen (s : State) : (dropResult s).cmpLen = s.cmpLen := rfl
@[simp] theorem dropResult_tgtLen (s : State) : (dropResult s).tgtLen = s.tgtLen := rfl
@[simp] theorem dropResult_dstBase (s : State) : (dropResult s).dstBase = s.dstBase := rfl
@[simp] theorem dropResult_phase (s : State) : (dropResult s).phase = .idle := rfl
@[simp] theorem dropResult_resSuccess (s : State) : (dropResult s).resSuccess = false := rfl
@[simp] theorem dropResult_resSize (s : State) : (dropResult s).resSize = 0 := rfl
@[simp] theorem dropResult_resData (s : State) : (dropResult s).resData = 0 := rfl
@[simp] theorem dropResult_err (s : State) : (dropResult s).err = none := rfl
@[simp] theorem dropResult_inPos (s : State) : (dropResult s).inPos = s.inPos := rfl
@[simp] theorem dropResult_ctrlIdx (s : State) : (dropResult s).ctrlIdx = s.ctrlIdx := rfl
@[simp] theorem dropResult_ctrl (s : State) : (dropResult s).ctrl = s.ctrl := rfl
@[simp] theorem dropResult_outPos (s : State) : (dropResult s).outPos = s.outPos := rfl
@[simp] theorem dropResult_copyDist (s : State) : (dropResult s).copyDist = s.copyDist := rfl
@[simp] theorem dropResult_copyRem (s : State) : (dropResult s).copyRem = s.copyRem := rfl
@[simp] theorem dropResult_inMem (s : State) : (dropResult s).inMem = s.inMem := rfl
@[simp] theorem dropResult_outMem (s : State) : (dropResult s).outMem = s.outMem := rfl
@[simp] theorem dropResult_agenda (s : State) : (dropResult s).agenda = s.agenda := rfl

/-! `resetEngine` -/

@[simp] theorem resetEngine_srcBase (s : State) : (resetEngine s).srcBase = 0 := rfl
@[simp] theorem resetEngine_cmpLen (s : State) : (resetEngine s).cmpLen = 0 := rfl
@[simp] theorem resetEngine_tgtLen (s : State) : (resetEngine s).tgtLen = 0 := rfl
@[simp] theorem resetEngine_dstBase (s : State) : (resetEngine s).dstBase = 0 := rfl
@[simp] theorem resetEngine_phase (s : State) : (resetEngine s).phase = .idle := rfl
@[simp] theorem resetEngine_resSuccess (s : State) : (resetEngine s).resSuccess = false := rfl
@[simp] theorem resetEngine_resSize (s : State) : (resetEngine s).resSize = 0 := rfl
@[simp] theorem resetEngine_resData (s : State) : (resetEngine s).resData = 0 := rfl
@[simp] theorem resetEngine_err (s : State) : (resetEngine s).err = none := rfl
@[simp] theorem resetEngine_inPos (s : State) : (resetEngine s).inPos = 0 := rfl
@[simp] theorem resetEngine_ctrlIdx (s : State) : (resetEngine s).ctrlIdx = 8 := rfl
@[simp] theorem resetEngine_ctrl (s : State) : (resetEngine s).ctrl = 0 := rfl
@[simp] theorem resetEngine_outPos (s : State) : (resetEngine s).outPos = 0 := rfl
@[simp] theorem resetEngine_copyDist (s : State) : (resetEngine s).copyDist = 0 := rfl
@[simp] theorem resetEngine_copyRem (s : State) : (resetEngine s).copyRem = 0 := rfl
@[simp] theorem resetEngine_inMem (s : State) : (resetEngine s).inMem = s.inMem := rfl
@[simp] theorem resetEngine_outMem (s : State) : (resetEngine s).outMem = [] := rfl
@[simp] theorem resetEngine_agenda (s : State) : (resetEngine s).agenda = s.agenda := rfl

/-! `ctrlTaken` -/

@[simp] theorem ctrlTaken_srcBase (c : Byte) (s : State) : (ctrlTaken c s).srcBase = s.srcBase := rfl
@[simp] theorem ctrlTaken_cmpLen (c : Byte) (s : State) : (ctrlTaken c s).cmpLen = s.cmpLen := rfl
@[simp] theorem ctrlTaken_tgtLen (c : Byte) (s : State) : (ctrlTaken c s).tgtLen = s.tgtLen := rfl
@[simp] theorem ctrlTaken_dstBase (c : Byte) (s : State) : (ctrlTaken c s).dstBase = s.dstBase := rfl
@[simp] theorem ctrlTaken_phase (c : Byte) (s : State) : (ctrlTaken c s).phase = s.phase := rfl
@[simp] theorem ctrlTaken_resSuccess (c : Byte) (s : State) :
    (ctrlTaken c s).resSuccess = s.resSuccess := rfl
@[simp] theorem ctrlTaken_resSize (c : Byte) (s : State) : (ctrlTaken c s).resSize = s.resSize := rfl
@[simp] theorem ctrlTaken_resData (c : Byte) (s : State) : (ctrlTaken c s).resData = s.resData := rfl
@[simp] theorem ctrlTaken_err (c : Byte) (s : State) : (ctrlTaken c s).err = s.err := rfl
@[simp] theorem ctrlTaken_inPos (c : Byte) (s : State) : (ctrlTaken c s).inPos = s.inPos + 1 := rfl
@[simp] theorem ctrlTaken_ctrlIdx (c : Byte) (s : State) : (ctrlTaken c s).ctrlIdx = 0 := rfl
@[simp] theorem ctrlTaken_ctrl (c : Byte) (s : State) : (ctrlTaken c s).ctrl = c := rfl
@[simp] theorem ctrlTaken_outPos (c : Byte) (s : State) : (ctrlTaken c s).outPos = s.outPos := rfl
@[simp] theorem ctrlTaken_copyDist (c : Byte) (s : State) : (ctrlTaken c s).copyDist = s.copyDist := rfl
@[simp] theorem ctrlTaken_copyRem (c : Byte) (s : State) : (ctrlTaken c s).copyRem = s.copyRem := rfl
@[simp] theorem ctrlTaken_inMem (c : Byte) (s : State) : (ctrlTaken c s).inMem = s.inMem := rfl
@[simp] theorem ctrlTaken_outMem (c : Byte) (s : State) : (ctrlTaken c s).outMem = s.outMem := rfl
@[simp] theorem ctrlTaken_agenda (c : Byte) (s : State) : (ctrlTaken c s).agenda = s.agenda := rfl

/-! `literalTaken` -/

@[simp] theorem literalTaken_srcBase (v : Byte) (s : State) :
    (literalTaken v s).srcBase = s.srcBase := rfl
@[simp] theorem literalTaken_cmpLen (v : Byte) (s : State) : (literalTaken v s).cmpLen = s.cmpLen := rfl
@[simp] theorem literalTaken_tgtLen (v : Byte) (s : State) : (literalTaken v s).tgtLen = s.tgtLen := rfl
@[simp] theorem literalTaken_dstBase (v : Byte) (s : State) :
    (literalTaken v s).dstBase = s.dstBase := rfl
@[simp] theorem literalTaken_phase (v : Byte) (s : State) : (literalTaken v s).phase = s.phase := rfl
@[simp] theorem literalTaken_resSuccess (v : Byte) (s : State) :
    (literalTaken v s).resSuccess = s.resSuccess := rfl
@[simp] theorem literalTaken_resSize (v : Byte) (s : State) :
    (literalTaken v s).resSize = s.resSize := rfl
@[simp] theorem literalTaken_resData (v : Byte) (s : State) :
    (literalTaken v s).resData = s.resData := rfl
@[simp] theorem literalTaken_err (v : Byte) (s : State) : (literalTaken v s).err = s.err := rfl
@[simp] theorem literalTaken_inPos (v : Byte) (s : State) :
    (literalTaken v s).inPos = s.inPos + 1 := rfl
@[simp] theorem literalTaken_ctrlIdx (v : Byte) (s : State) :
    (literalTaken v s).ctrlIdx = s.ctrlIdx + 1 := rfl
@[simp] theorem literalTaken_ctrl (v : Byte) (s : State) : (literalTaken v s).ctrl = s.ctrl := rfl
@[simp] theorem literalTaken_outPos (v : Byte) (s : State) :
    (literalTaken v s).outPos = s.outPos + 1 := rfl
@[simp] theorem literalTaken_copyDist (v : Byte) (s : State) :
    (literalTaken v s).copyDist = s.copyDist := rfl
@[simp] theorem literalTaken_copyRem (v : Byte) (s : State) :
    (literalTaken v s).copyRem = s.copyRem := rfl
@[simp] theorem literalTaken_inMem (v : Byte) (s : State) : (literalTaken v s).inMem = s.inMem := rfl
@[simp] theorem literalTaken_outMem (v : Byte) (s : State) :
    (literalTaken v s).outMem = s.outMem.write s.outPos v := rfl
@[simp] theorem literalTaken_agenda (v : Byte) (s : State) : (literalTaken v s).agenda = s.agenda := rfl

/-! `refTaken` -/

@[simp] theorem refTaken_srcBase (p : Params) (d l : Nat) (s : State) :
    (refTaken p d l s).srcBase = s.srcBase := rfl
@[simp] theorem refTaken_cmpLen (p : Params) (d l : Nat) (s : State) :
    (refTaken p d l s).cmpLen = s.cmpLen := rfl
@[simp] theorem refTaken_tgtLen (p : Params) (d l : Nat) (s : State) :
    (refTaken p d l s).tgtLen = s.tgtLen := rfl
@[simp] theorem refTaken_dstBase (p : Params) (d l : Nat) (s : State) :
    (refTaken p d l s).dstBase = s.dstBase := rfl
@[simp] theorem refTaken_phase (p : Params) (d l : Nat) (s : State) :
    (refTaken p d l s).phase = s.phase := rfl
@[simp] theorem refTaken_resSuccess (p : Params) (d l : Nat) (s : State) :
    (refTaken p d l s).resSuccess = s.resSuccess := rfl
@[simp] theorem refTaken_resSize (p : Params) (d l : Nat) (s : State) :
    (refTaken p d l s).resSize = s.resSize := rfl
@[simp] theorem refTaken_resData (p : Params) (d l : Nat) (s : State) :
    (refTaken p d l s).resData = s.resData := rfl
@[simp] theorem refTaken_err (p : Params) (d l : Nat) (s : State) :
    (refTaken p d l s).err = s.err := rfl
@[simp] theorem refTaken_inPos (p : Params) (d l : Nat) (s : State) :
    (refTaken p d l s).inPos = s.inPos + p.refBytes := rfl
@[simp] theorem refTaken_ctrlIdx (p : Params) (d l : Nat) (s : State) :
    (refTaken p d l s).ctrlIdx = s.ctrlIdx + 1 := rfl
@[simp] theorem refTaken_ctrl (p : Params) (d l : Nat) (s : State) :
    (refTaken p d l s).ctrl = s.ctrl := rfl
@[simp] theorem refTaken_outPos (p : Params) (d l : Nat) (s : State) :
    (refTaken p d l s).outPos = s.outPos := rfl
@[simp] theorem refTaken_copyDist (p : Params) (d l : Nat) (s : State) :
    (refTaken p d l s).copyDist = d := rfl
@[simp] theorem refTaken_copyRem (p : Params) (d l : Nat) (s : State) :
    (refTaken p d l s).copyRem = clippedCount l s := rfl
@[simp] theorem refTaken_inMem (p : Params) (d l : Nat) (s : State) :
    (refTaken p d l s).inMem = s.inMem := rfl
@[simp] theorem refTaken_outMem (p : Params) (d l : Nat) (s : State) :
    (refTaken p d l s).outMem = s.outMem := rfl
@[simp] theorem refTaken_agenda (p : Params) (d l : Nat) (s : State) :
    (refTaken p d l s).agenda = s.agenda := rfl

/-! `byteCopied` -/

@[simp] theorem byteCopied_srcBase (v : Byte) (s : State) : (byteCopied v s).srcBase = s.srcBase := rfl
@[simp] theorem byteCopied_cmpLen (v : Byte) (s : State) : (byteCopied v s).cmpLen = s.cmpLen := rfl
@[simp] theorem byteCopied_tgtLen (v : Byte) (s : State) : (byteCopied v s).tgtLen = s.tgtLen := rfl
@[simp] theorem byteCopied_dstBase (v : Byte) (s : State) : (byteCopied v s).dstBase = s.dstBase := rfl
@[simp] theorem byteCopied_phase (v : Byte) (s : State) : (byteCopied v s).phase = s.phase := rfl
@[simp] theorem byteCopied_resSuccess (v : Byte) (s : State) :
    (byteCopied v s).resSuccess = s.resSuccess := rfl
@[simp] theorem byteCopied_resSize (v : Byte) (s : State) : (byteCopied v s).resSize = s.resSize := rfl
@[simp] theorem byteCopied_resData (v : Byte) (s : State) : (byteCopied v s).resData = s.resData := rfl
@[simp] theorem byteCopied_err (v : Byte) (s : State) : (byteCopied v s).err = s.err := rfl
@[simp] theorem byteCopied_inPos (v : Byte) (s : State) : (byteCopied v s).inPos = s.inPos := rfl
@[simp] theorem byteCopied_ctrlIdx (v : Byte) (s : State) : (byteCopied v s).ctrlIdx = s.ctrlIdx := rfl
@[simp] theorem byteCopied_ctrl (v : Byte) (s : State) : (byteCopied v s).ctrl = s.ctrl := rfl
@[simp] theorem byteCopied_outPos (v : Byte) (s : State) : (byteCopied v s).outPos = s.outPos + 1 := rfl
@[simp] theorem byteCopied_copyDist (v : Byte) (s : State) :
    (byteCopied v s).copyDist = s.copyDist := rfl
@[simp] theorem byteCopied_copyRem (v : Byte) (s : State) :
    (byteCopied v s).copyRem = s.copyRem - 1 := rfl
@[simp] theorem byteCopied_inMem (v : Byte) (s : State) : (byteCopied v s).inMem = s.inMem := rfl
@[simp] theorem byteCopied_outMem (v : Byte) (s : State) :
    (byteCopied v s).outMem = s.outMem.write s.outPos v := rfl
@[simp] theorem byteCopied_agenda (v : Byte) (s : State) : (byteCopied v s).agenda = s.agenda := rfl

end Sys2Proof.Machine
end

