-- ==== Sys2Proof/Machine/Call.lean ====
section
/-! DEFINITION. The whole-call function `Decode` (45_decode_function.md R107), written on its own, over
byte lists, apart from the micro-steps; R108 says the two agree. -/

namespace Sys2Proof.Machine

/-- The answer of `Decode` (R107). -/
inductive CallOutcome where
  | success (bytes : List Byte)
  | failure (cause : Cause)
  deriving DecidableEq, Repr

/-- `Decode` with the index its input cursor ends at, which R114 and R117 speak of. -/
structure CallRun where
  outcome : CallOutcome
  inPos : Nat
  deriving DecidableEq, Repr

/-- `repeat n times: O[op] <- O[op - d] ; op <- op + 1` (R107): `out` holds the bytes written so far, so
`op` is its length. -/
def copyBytes : (n d : Nat) → List Byte → List Byte
  | 0, _, out => out
  | n + 1, d, out => copyBytes n d (out ++ (out[out.length - d]?).toList)

/-- The loop of R107 with `ip`, `idx`, `ctrl` and the bytes written so far. Each pass that does not
return consumes an input byte (R110), so `fuel`, which starts at `c`, is at least `c - ip`; with no fuel
left the input is exhausted and only the first two tests are made. `input[ip]?` is a byte wherever
`ip < c` (log 14). -/
def decodeLoop (p : Params) (input : List Byte) (c t : Nat) :
    (fuel : Nat) → (ip idx : Nat) → (ctrl : Byte) → (out : List Byte) → CallRun
  | 0, ip, _, _, out =>
    if out.length = t then ⟨.success out, ip⟩ else ⟨.failure .truncatedInput, ip⟩
  | fuel + 1, ip, idx, ctrl, out =>
    if out.length = t then ⟨.success out, ip⟩
    else if ip = c then ⟨.failure .truncatedInput, ip⟩
    else
      match input[ip]? with
      | none => ⟨.failure .truncatedInput, ip⟩
      | some b =>
        if idx = 8 then decodeLoop p input c t fuel (ip + 1) 0 b out
        else if flag p ctrl idx != p.refFlag then
          decodeLoop p input c t fuel (ip + 1) (idx + 1) ctrl (out ++ [b])
        else if c - ip < p.refBytes then ⟨.failure .oversizedToken, ip⟩
        else
          let dl := p.refDecode ((input.drop ip).take p.refBytes)
          if dl.2 = 0 ∨ dl.1 = 0 then ⟨.failure .invalidToken, ip⟩
          else if out.length < dl.1 then ⟨.failure .corruptReference, ip⟩
          else
            decodeLoop p input c t fuel (ip + p.refBytes) (idx + 1) ctrl
              (copyBytes (min dl.2 (t - out.length)) dl.1 out)

/-- `Decode(IN, c, t)` with its final input cursor, "for a byte sequence `IN` of at least `c` bytes". -/
def decodeRun (p : Params) (input : List Byte) (c t : Nat) : CallRun :=
  if c = 0 then ⟨.success [], 0⟩ else decodeLoop p input c t c 0 8 0 []

/-- `Decode(IN, c, t)` (R107). -/
def decodeCall (p : Params) (input : List Byte) (c t : Nat) : CallOutcome :=
  (decodeRun p input c t).outcome

/-- The output after one accepted item (R121): a literal adds its byte, a reference `(d, l)` adds `l`
bytes repeated from distance `d`, a control byte adds none. -/
def expandItem (out : List Byte) : Instr → List Byte
  | .ctrl _ => out
  | .lit v => out ++ [v]
  | .ref d l => copyBytes l d out

/-- "the concatenation of their expansions" (R121). -/
def expandItems (items : List Instr) : List Byte := items.foldl expandItem []

/-- The bytes of OUT below `n`, those that have a value. -/
def outBytes (s : State) (n : Nat) : List Byte := (List.range n).filterMap fun i => s.outMem.read i

end Sys2Proof.Machine
end

