-- ==== Sys2Proof/Machine/Platform.lean ====
section
/-! DEFINITION. Several engines (60_exceptions.md R135): `N_ENGINES` is the OPEN parameter `n`; the
instances "share no register and no state". What they can meet in is the host's memory, so a launch or a
host write of one engine is checked here against the buffers of the others (log 16). -/

namespace Sys2Proof.Machine

/-- `n` independent engine instances. -/
abbrev Platform (n : Nat) := Vector State n

/-- A location lies in the buffer of a handle and a length (20_memory.md R35). -/
def inBuffer (p : Params) (handle len location : Nat) : Bool :=
  (List.range len).any fun i => p.locate handle i == location

/-- Two buffers hold different contents at a location they share. -/
def contentsDiffer (p : Params) (handle₁ len₁ : Nat) (m₁ : Memory) (handle₂ len₂ : Nat) (m₂ : Memory) :
    Bool :=
  (List.range len₁).any fun i =>
    (List.range len₂).any fun j =>
      p.locate handle₁ i == p.locate handle₂ j && m₁.read i != m₂.read j

/-- An engine's OUT has an owner beside the host's free memory (44_host_commands.md R101): the engine
during a call, and the holder of a live result after a success. -/
def outInUse (s : State) : Bool := s.phase == .run || liveResult s

/-- A launch claims a buffer that is not free for it. Two engines running at once share no location
(20_memory.md R52; R135) but of IN, which two "may read ... at the same time"; and the new OUT "belong[s]
to no one else" (R96 b), so it is no live result of another engine, whose bytes the host may still read
(R49, R100). The new IN may lie in a live result: the host may use one (20_memory.md R50). -/
def launchShares (p : Params) (op : StartOperands) (other : State) : Bool :=
  (outInUse other && buffersMeet p op.dstBase op.tgtLen other.dstBase other.tgtLen)
    || (other.phase == .run
      && (buffersMeet p op.srcBase op.cmpLen other.dstBase other.tgtLen
        || buffersMeet p op.dstBase op.tgtLen other.srcBase other.cmpLen))

/-- The stream placed for a launch is not what stands at its locations: the IN of a running engine, which
no host write can have changed (20_memory.md R50), or a live result, holds another byte there. Then "the
`cmp_len` bytes reached from `src_base`" do not "hold the compressed stream" (R96 a; log 18). -/
def launchDisagrees (p : Params) (op : StartOperands) (s other : State) : Bool :=
  (other.phase == .run
      && contentsDiffer p op.srcBase op.cmpLen s.inMem other.srcBase other.cmpLen other.inMem)
    || (liveResult other
      && contentsDiffer p op.srcBase op.cmpLen s.inMem other.dstBase other.resSize other.outMem)

/-- A location lies in the OUT of an engine that is running. -/
def inRunningOut (p : Params) (location : Nat) (s : State) : Bool :=
  s.phase == .run && inBuffer p s.dstBase s.tgtLen location

/-- A location lies in the IN of an engine that is running. -/
def inRunningIn (p : Params) (location : Nat) (s : State) : Bool :=
  s.phase == .run && inBuffer p s.srcBase s.cmpLen location

/-- Some engine but `k` has the property. -/
def Platform.anyOther {n : Nat} (k : Fin n) (pl : Platform n) (q : State → Bool) : Bool :=
  (List.finRange n).any fun j => j != k && q pl[j]

/-- What forbids engine `k` a launch, looking at the other engines. -/
def Platform.launchRefusal {n : Nat} (p : Params) (k : Fin n) (pl : Platform n) (op : StartOperands) :
    Option Refusal :=
  if pl.anyOther k (launchShares p op) then some .launchSharesBuffer
  else if pl.anyOther k (launchDisagrees p op pl[k]) then some .launchInputDisagrees
  else none

/-- What forbids the host a write of a location: during a call the host "must not read or write any
location of OUT and must not write any location of IN" (20_memory.md R50; 93 V4: "if modelled, refuse"). -/
def Platform.writeRefusal {n : Nat} (p : Params) (k : Fin n) (pl : Platform n) (location : Nat) :
    Option Refusal :=
  if pl.anyOther k (inRunningOut p location) then some .hostTouchesOutput
  else if pl.anyOther k (inRunningIn p location) then some .hostWritesInputDuringCall
  else none

/-- What the other engines' buffers forbid of engine `k`'s next move. Moves that the engine ignores
or refuses by itself are left to `stepWith`. A host write is located from `DST_BASE`; DESIGN CHOICE (log
16): after a reset and before the next START, where R33 leaves `DST_BASE` unspecified, from the value of
log 4. -/
def Platform.refusal {n : Nat} (p : Params) (k : Fin n) (pl : Platform n) : Option Refusal :=
  match pl[k].agenda with
  | .start op :: _ =>
    if pl[k].phase ≠ .run ∧ Machine.launchRefusal p pl[k] op = none then pl.launchRefusal p k op
    else none
  | .writeOut i _ :: _ =>
    if pl[k].phase ≠ .run then pl.writeRefusal p k (p.locate pl[k].dstBase i) else none
  | _ => none

/-- A memory after a byte is written at a location, where index `i < len` of it lies at
`p.locate handle i`. -/
def overwriteAt (p : Params) (handle location : Nat) (v : Byte) : (len : Nat) → Memory → Memory
  | 0, m => m
  | len + 1, m =>
    if p.locate handle len = location then (overwriteAt p handle location v len m).write len v
    else overwriteAt p handle location v len m

/-- An engine after the host has written a byte at a location: the byte of its live result there is the
one written (20_memory.md R50). -/
def afterHostWrite (p : Params) (location : Nat) (v : Byte) (s : State) : State :=
  if liveResult s then
    { s with outMem := overwriteAt p s.dstBase location v s.resSize s.outMem }
  else s

/-- Every engine changed alike. -/
def Platform.mapEngines {n : Nat} (f : State → State) (pl : Platform n) : Platform n :=
  ⟨(pl.toList.map f).toArray, by simp⟩

/-- What engine `k`'s next move does to the engines beside it: nothing, but that a host write of a
location is a write of that location for every live result. DESIGN CHOICE (log 16): after a reset and
before the next START the location follows from the value log 4 gives `DST_BASE`, as in
`Platform.refusal`. -/
def Platform.settle {n : Nat} (p : Params) (k : Fin n) (pl : Platform n) : Platform n :=
  match pl[k].agenda with
  | .writeOut i v :: _ => pl.mapEngines (afterHostWrite p (p.locate pl[k].dstBase i) v)
  | _ => pl

/-- One step of engine `k`. -/
def Platform.step {n : Nat} (p : Params) (k : Fin n) (pl : Platform n) :
    Host.Outcome (Platform n) Fault Refusal :=
  match pl.refusal p k with
  | some r => .refused r
  | none =>
    match stepWith p pl[k] with
    | .next t => .next ((pl.settle p k).set k t)
    | .fault f => .fault f
    | .refused r => .refused r

end Sys2Proof.Machine
end

