-- ==== Sys2Proof/Safety.lean ====
section
/-! DEFINITION. What claims use: the invariant of every reachable state (10_state.md R32 with the writers
of R14 to R24 and 20_memory.md R39), the ranges, and what a safe run is. -/

namespace Sys2Proof.Machine

/-- The memories keep their canonical form. -/
structure MemoriesWf (s : State) : Prop where
  inMem : s.inMem.wf
  outMem : s.outMem.wf

/-- The invariant of the machine. After a reset it holds by the values of log 4 and log 15. -/
structure Inv (s : State) : Prop where
  inWf : s.inMem.wf
  /-- "at every moment exactly the indices `0 .. OUT_POS-1` have been written in this call" (R39) -/
  written : s.outMem.map Prod.fst = List.range s.outPos
  /-- `0 <= IN_POS <= CMP_LEN` (R32) -/
  inPos_le : s.inPos ≤ s.cmpLen
  /-- `0 <= OUT_POS <= TGT_LEN` (R32) -/
  outPos_le : s.outPos ≤ s.tgtLen
  /-- `COPY_REM = 0` or (`1 <= COPY_DIST <= OUT_POS` and `OUT_POS + COPY_REM <= TGT_LEN`) (R32) -/
  copying : s.copyRem = 0 ∨
    (1 ≤ s.copyDist ∧ s.copyDist ≤ s.outPos ∧ s.outPos + s.copyRem ≤ s.tgtLen)
  /-- only a running call is inside a reference (R20) -/
  copyInRun : s.phase ≠ .run → s.copyRem = 0
  /-- a call that has consumed nothing has produced nothing and expects a control byte (R140) -/
  fresh : s.inPos = 0 → s.outPos = 0 ∧ s.copyRem = 0 ∧ s.ctrlIdx = 8
  /-- the launch duty (a) of R96 holds for the call in progress -/
  supplied : s.phase = .run → ∀ i < s.cmpLen, (s.inMem.read i).isSome = true
  /-- no result is held outside DONE (R21 to R24) -/
  noResult : s.phase ≠ .done →
    s.resSuccess = false ∧ s.resSize = 0 ∧ s.resData = 0 ∧ s.err = none
  /-- a success (R97, R99): the whole target, or nothing of a zero-length input -/
  success : s.phase = .done → s.resSuccess = true →
    s.err = none ∧ s.resData = s.dstBase ∧
      ((s.resSize = s.tgtLen ∧ s.outPos = s.tgtLen) ∨
        (s.cmpLen = 0 ∧ s.resSize = 0 ∧ s.outPos = 0))
  /-- a failure (R126) -/
  failure : s.phase = .done → s.resSuccess = false →
    s.resSize = 0 ∧ s.resData = 0 ∧ s.err ≠ none

/-- A START whose operands are in range (R11, R12). -/
def StartOperands.inRange (w : Widths) (op : StartOperands) : Prop :=
  op.srcBase < 2 ^ w.ptrW ∧ op.cmpLen < 2 ^ w.lenW ∧ op.tgtLen < 2 ^ w.lenW ∧ op.dstBase < 2 ^ w.ptrW

/-- Every register of R27 holds a value of its width, and so does every START still to come. -/
structure InRange (w : Widths) (s : State) : Prop where
  regs : ∀ r : Reg, readReg s r < 2 ^ r.width w
  agenda : ∀ op, Move.start op ∈ s.agenda → op.inRange w

/-- A run of the engine is safe for `k` micro-steps when it meets no fault and no refusal: no access out
of bounds (45_decode_function.md R111), no missing step (R110). -/
def EngineSafe (p : Params) (k : Nat) (s : State) : Prop := ∃ t, engineRun p k s = .next t

/-- What the host can learn of a call (10_state.md R28): the host-visible registers and, after a success,
the bytes of OUT. -/
structure SameToHost (s t : State) : Prop where
  regs : ∀ r : Reg, hostReadReg s r = hostReadReg t r
  bytes : ∀ i, hostReadOut s i = hostReadOut t i

/-- A decode call begins: an effective START takes `s` to `t` (44_host_commands.md R94). -/
def BeginsCall (p : Params) (op : StartOperands) (s t : State) : Prop :=
  s.phase ≠ .run ∧ start p op s = .next t

/-- IN holds the byte sequence `input` as far as the call sees it, and the sequence has "at least `c`
bytes" (45_decode_function.md R107). -/
def InputIs (s : State) (op : StartOperands) (input : List Byte) : Prop :=
  op.cmpLen ≤ input.length ∧ ∀ i < op.cmpLen, s.inMem.read i = input[i]?

/-- The control bytes among consumed items, in stream order. -/
def controlsOf (items : List Instr) : List Byte :=
  items.filterMap fun i =>
    match i with
    | .ctrl c => some c
    | .lit _ => none
    | .ref _ _ => none

/-- The tokens among consumed items, in stream order (30_encoding.md R53). -/
def tokensOf (items : List Instr) : List Instr := items.filter Instr.isToken

/-- Two buffers, each a handle and a length, name a common location (20_memory.md R35). -/
def Meets (p : Params) (handle₁ len₁ handle₂ len₂ : Nat) : Prop :=
  ∃ i < len₁, ∃ j < len₂, p.locate handle₁ i = p.locate handle₂ j

/-- Two buffers hold the same byte wherever they name a common location. -/
def Agree (p : Params) (handle₁ len₁ : Nat) (m₁ : Memory) (handle₂ len₂ : Nat) (m₂ : Memory) : Prop :=
  ∀ i < len₁, ∀ j < len₂, p.locate handle₁ i = p.locate handle₂ j → m₁.read i = m₂.read j

/-- How the engines of a platform share the host's memory (60_exceptions.md R135; 20_memory.md R46, R50,
R52), with what the model adds by its own choice: live results in `outs` (log 16), `inputs` and `chained`
(log 18). -/
structure PlatformInv {n : Nat} (p : Params) (pl : Platform n) : Prop where
  engines : ∀ k : Fin n, Inv pl[k]
  /-- an OUT that an engine owns, or that is a live result, is one engine's only -/
  outs : ∀ j k : Fin n, j ≠ k → outInUse pl[j] = true → outInUse pl[k] = true →
    ¬ Meets p pl[j].dstBase pl[j].tgtLen pl[k].dstBase pl[k].tgtLen
  /-- an OUT being written is "disjoint from every IN in use" -/
  inOut : ∀ j k : Fin n, pl[j].phase = .run → pl[k].phase = .run →
    ¬ Meets p pl[j].srcBase pl[j].cmpLen pl[k].dstBase pl[k].tgtLen
  /-- engines that read the same IN read the same bytes -/
  inputs : ∀ j k : Fin n, j ≠ k → pl[j].phase = .run → pl[k].phase = .run →
    Agree p pl[j].srcBase pl[j].cmpLen pl[j].inMem pl[k].srcBase pl[k].cmpLen pl[k].inMem
  /-- a live result read as an IN has the bytes of that result -/
  chained : ∀ j k : Fin n, j ≠ k → pl[j].phase = .run → liveResult pl[k] = true →
    Agree p pl[j].srcBase pl[j].cmpLen pl[j].inMem pl[k].dstBase pl[k].resSize pl[k].outMem

end Sys2Proof.Machine
end

