-- ==== Sys2Proof/Laws/Memory.lean ====
section
/-! SUPPORT. What the memory operations do, and that each keeps the canonical form. -/

namespace Sys2Proof.Machine

@[simp] theorem Memory.read_nil (i : Nat) : Memory.read [] i = none := rfl

/-- A read after a write to the same index gives the byte written. -/
@[simp] theorem Memory.read_write_same (m : Memory) (i : Nat) (v : Byte) :
    (Memory.write m i v).read i = some v := by
  induction m with
  | nil => simp [Memory.write, Memory.read]
  | cons c m ih =>
    obtain ⟨a, b⟩ := c
    simp only [Memory.write]
    split
    · simp [Memory.read]
    · split
      · simp [Memory.read]
      · rename_i h
        simp [Memory.read, h, ih]

/-- A write leaves every other index alone. -/
theorem Memory.read_write_other (m : Memory) {i j : Nat} (v : Byte) (h : j ≠ i) :
    (Memory.write m i v).read j = m.read j := by
  induction m with
  | nil => simp [Memory.write, Memory.read, Ne.symm h]
  | cons c m ih =>
    obtain ⟨a, b⟩ := c
    simp only [Memory.write]
    split
    · simp [Memory.read, Ne.symm h]
    · split
      · rename_i h' h''
        subst h''
        simp [Memory.read, Ne.symm h]
      · simp [Memory.read, ih]

/-- Every index of a written memory is the written one or an old one. -/
theorem Memory.mem_write {m : Memory} {i : Nat} {v : Byte} {c : Host.Cell}
    (h : c ∈ Memory.write m i v) : c = (i, v) ∨ c ∈ m := by
  induction m with
  | nil => simpa [Memory.write] using h
  | cons d m ih =>
    obtain ⟨a, b⟩ := d
    simp only [Memory.write] at h
    split at h
    · simpa using h
    · split at h
      · rcases List.mem_cons.1 h with h | h
        · exact .inl h
        · exact .inr (List.mem_cons_of_mem _ h)
      · rcases List.mem_cons.1 h with h | h
        · exact .inr (h ▸ List.mem_cons_self)
        · exact (ih h).imp_right (List.mem_cons_of_mem _)

/-- A write keeps the canonical form. -/
theorem Memory.write_wf {m : Memory} (h : m.wf) (i : Nat) (v : Byte) : (Memory.write m i v).wf := by
  induction m with
  | nil => simp [Memory.write, Memory.wf]
  | cons c m ih =>
    obtain ⟨a, b⟩ := c
    obtain ⟨hhead, htail⟩ := List.pairwise_cons.1 h
    simp only [Memory.write]
    split
    · rename_i hlt
      refine List.pairwise_cons.2 ⟨fun d hd => ?_, h⟩
      rcases List.mem_cons.1 hd with rfl | hd
      · exact hlt
      · exact hlt.trans (hhead d hd)
    · split
      · rename_i heq
        subst heq
        exact List.pairwise_cons.2 ⟨hhead, htail⟩
      · refine List.pairwise_cons.2 ⟨fun d hd => ?_, ih htail⟩
        rcases Memory.mem_write hd with rfl | hd
        · simp; omega
        · exact hhead d hd

theorem Memory.place_lower (start : Nat) (bytes : List Byte) {c : Host.Cell}
    (h : c ∈ Memory.place start bytes) : start ≤ c.1 := by
  induction bytes generalizing start with
  | nil => simp [Memory.place] at h
  | cons b bytes ih =>
    rcases List.mem_cons.1 h with rfl | h
    · exact le_refl _
    · exact Nat.le_of_succ_le (ih _ h)

/-- A placed byte list is in canonical form. -/
theorem Memory.place_wf (start : Nat) (bytes : List Byte) : (Memory.place start bytes).wf := by
  induction bytes generalizing start with
  | nil => simp [Memory.place, Memory.wf]
  | cons b bytes ih =>
    exact List.pairwise_cons.2 ⟨fun d hd => Memory.place_lower _ _ hd, ih _⟩

theorem Memory.ofBytes_wf (bytes : List Byte) : (Memory.ofBytes bytes).wf := Memory.place_wf 0 bytes

theorem placeAt_wf {m : Memory} (h : m.wf) (i : Nat) (bytes : List Byte) : (placeAt m i bytes).wf := by
  induction bytes generalizing m i with
  | nil => exact h
  | cons b bytes ih => exact ih (Memory.write_wf h i b) (i + 1)

theorem Memory.read_place (start : Nat) (bytes : List Byte) (i : Nat) :
    (Memory.place start bytes).read (start + i) = bytes[i]? := by
  induction bytes generalizing start i with
  | nil => simp [Memory.place]
  | cons b bytes ih =>
    cases i with
    | zero => simp [Memory.place, Memory.read]
    | succ i =>
      have := ih (start + 1) i
      rw [show start + 1 + i = start + (i + 1) by omega] at this
      simp [Memory.place, Memory.read, this]

/-- A byte sequence placed in a buffer reads as that sequence. -/
@[simp] theorem Memory.read_ofBytes (bytes : List Byte) (i : Nat) :
    (Memory.ofBytes bytes).read i = bytes[i]? := by
  simpa [Memory.ofBytes] using Memory.read_place 0 bytes i

/-- An index reads as a byte exactly when it is listed. -/
theorem Memory.read_isSome {m : Memory} {i : Nat} :
    (m.read i).isSome = true ↔ i ∈ m.map Prod.fst := by
  induction m with
  | nil => simp
  | cons c m ih =>
    obtain ⟨a, b⟩ := c
    by_cases h : a = i
    · simp [Memory.read, h]
    · simp [Memory.read, h, ih, Ne.symm h]

/-- Writing past every listed index appends. -/
theorem Memory.write_append {m : Memory} {i : Nat} {v : Byte} (h : ∀ c ∈ m, c.1 < i) :
    Memory.write m i v = m ++ [(i, v)] := by
  induction m with
  | nil => rfl
  | cons c m ih =>
    obtain ⟨a, b⟩ := c
    have ha : a < i := h _ List.mem_cons_self
    simp [Memory.write, Nat.not_lt.2 ha.le, ha.ne, ih fun d hd => h d (List.mem_cons_of_mem _ hd)]

/-- The next byte of an output written so far extends it by one index (20_memory.md R39). -/
theorem Memory.keys_write_next {m : Memory} {n : Nat} (h : m.map Prod.fst = List.range n) (v : Byte) :
    (Memory.write m n v).map Prod.fst = List.range (n + 1) := by
  have hlt : ∀ c ∈ m, c.1 < n := fun c hc => by
    have : c.1 ∈ m.map Prod.fst := List.mem_map_of_mem hc
    rw [h] at this
    exact List.mem_range.1 this
  rw [Memory.write_append hlt, List.map_append, h, List.range_succ]
  rfl

theorem Memory.keys_write_listed {m : Memory} (hwf : m.wf) {i : Nat} (h : i ∈ m.map Prod.fst) (v : Byte) :
    (Memory.write m i v).map Prod.fst = m.map Prod.fst := by
  induction m with
  | nil => simp at h
  | cons c m ih =>
    obtain ⟨a, b⟩ := c
    obtain ⟨hhead, htail⟩ := List.pairwise_cons.1 hwf
    simp only [List.map_cons, List.mem_cons] at h
    rcases h with rfl | h
    · simp [Memory.write]
    · obtain ⟨d, hd, hdi⟩ := List.mem_map.1 h
      have : a < i := hdi ▸ hhead d hd
      simp [Memory.write, Nat.not_lt.2 this.le, this.ne, ih htail h]

/-- Keys `0 .. n-1` in order are a canonical form. -/
theorem Memory.wf_of_keys {m : Memory} {n : Nat} (h : m.map Prod.fst = List.range n) : m.wf := by
  have : (m.map Prod.fst).Pairwise (· < ·) := h ▸ List.pairwise_lt_range
  exact List.pairwise_map.1 this

theorem Memory.read_isSome_of_keys {m : Memory} {n : Nat} (h : m.map Prod.fst = List.range n) (j : Nat) :
    (m.read j).isSome = true ↔ j < n := by
  rw [Memory.read_isSome, h, List.mem_range]

end Sys2Proof.Machine
end

