-- ==== Sys2Proof/Laws/Step.lean ====
section
/-! SUPPORT. What each shared operation and one engine micro-step can do, said once: `engineTurn_next_iff`
is the inversion every invariant proof cites instead of unfolding the sequencer. -/

namespace Sys2Proof.Machine

open Host (Outcome)

/-! The parametric machine at the defaults is the machine. -/

theorem exec_eq_execWith (i : Instr) (s : State) : exec i s = execWith params i s := by
  cases i <;> rfl

theorem step_eq_stepWith (s : State) : step s = stepWith params s := by
  have : exec = execWith params := funext fun i => funext fun s => exec_eq_execWith i s
  rw [step, stepWith, this]

/-! One step in terms of turns. -/

theorem stepWith_nil {p : Params} {s : State} (h : s.agenda = []) : stepWith p s = engineTurn p s := by
  simp [stepWith, stepBy, h, engineTurn]

theorem stepWith_engine {p : Params} {s : State} {ms : List Move} (h : s.agenda = .engine :: ms) :
    stepWith p s = engineTurn p { s with agenda := ms } := by
  simp [stepWith, stepBy, h, moveBy, engineTurn]

theorem stepWith_cons {p : Params} {s : State} {m : Move} {ms : List Move} (h : s.agenda = m :: ms) :
    stepWith p s = moveBy (execWith p) p m { s with agenda := ms } := by
  simp [stepWith, stepBy, h]

/-! Selectors. -/

theorem itemWanted_iff {s : State} : itemWanted s = true ↔
    s.phase = .run ∧ s.copyRem = 0 ∧ 0 < s.cmpLen ∧ s.outPos < s.tgtLen ∧ s.inPos < s.cmpLen := by
  simp [itemWanted, and_assoc]

theorem selected_ctrl_iff {p : Params} {s : State} :
    selected p .ctrl s = true ↔ itemWanted s = true ∧ s.ctrlIdx = 8 := by
  simp [selected]

theorem selected_lit_iff {p : Params} {s : State} : selected p .lit s = true ↔
    itemWanted s = true ∧ s.ctrlIdx.val < 8 ∧ nextIsRef p s = false := by
  simp [selected, and_assoc]

theorem selected_ref_iff {p : Params} {s : State} : selected p .ref s = true ↔
    itemWanted s = true ∧ s.ctrlIdx.val < 8 ∧ nextIsRef p s = true := by
  simp [selected, and_assoc]

theorem ctrlIdx_lt_eight_iff {k : Fin 9} : k.val < 8 ↔ k ≠ 8 := by
  constructor
  · rintro h rfl
    exact absurd h (by decide)
  · intro h
    have h1 := k.isLt
    have h2 : k.val ≠ 8 := fun h3 => h (Fin.ext h3)
    omega

/-- `CTRL_IDX` advanced by 1, never past 8 (R16). -/
theorem ctrlIdx_succ_val {k : Fin 9} (h : k.val < 8) : (k + 1).val = k.val + 1 := by
  rw [Fin.val_add_one_of_lt]
  exact Fin.lt_def.2 (by simpa using h)

/-- Dispatch names an item kind exactly when it is the selected one (R69 against the table's selectors),
in a state whose cursors do not stand past their ends. -/
theorem dispatch_item_iff {p : Params} {s : State} {kind : ItemKind}
    (hin : s.inPos ≤ s.cmpLen) (hout : s.outPos ≤ s.tgtLen) :
    dispatch p s = .item kind ↔ selected p kind s = true := by
  unfold dispatch
  split_ifs with h1 h2 h3 h4 h5 h6 h7
  · cases kind <;> simp [selected, itemWanted, h1]
  · cases kind <;> simp [selected, itemWanted, h2.ne']
  · cases kind <;> simp [selected, itemWanted, h3]
  · cases kind <;> simp [selected, itemWanted, h4]
  · cases kind <;> simp [selected, itemWanted, h5]
  all_goals
    have hw : itemWanted s = true := itemWanted_iff.2
      ⟨by simpa using h1, by omega, by omega, by omega, by omega⟩
  · cases kind <;> simp [selected, hw, h6]
  · have hlt := ctrlIdx_lt_eight_iff.2 h6
    cases kind <;> simp [selected, hw, h6, hlt, h7]
  · have hlt := ctrlIdx_lt_eight_iff.2 h6
    cases kind <;> simp [selected, hw, h6, hlt, h7]

/-- A selected item is wanted at a token boundary of a running call. -/
theorem itemWanted_of_selected {p : Params} {kind : ItemKind} {s : State}
    (h : selected p kind s = true) : itemWanted s = true := by
  cases kind
  · exact (selected_ctrl_iff.1 h).1
  · exact (selected_lit_iff.1 h).1
  · exact (selected_ref_iff.1 h).1

/-- A selected item is the one dispatch names. -/
theorem dispatch_of_selected {p : Params} {s : State} {kind : ItemKind} (h : selected p kind s = true) :
    dispatch p s = .item kind := by
  obtain ⟨-, -, -, h4, h5⟩ := itemWanted_iff.1 (itemWanted_of_selected h)
  exact (dispatch_item_iff h5.le h4.le).2 h

/-! Reading IN. -/

theorem inRead_eq_some {s : State} {i : Nat} {b : Byte} :
    inRead s i = some b ↔ i < s.cmpLen ∧ s.inMem.read i = some b := by
  simp [inRead]

theorem inBytes_one {s : State} {i : Nat} {bytes : List Byte} :
    inBytes s i 1 = some bytes ↔ ∃ b, inRead s i = some b ∧ bytes = [b] := by
  simp only [inBytes]
  cases inRead s i <;> simp [eq_comm]

/-- The bytes read are as many as asked for, each the byte of IN at its index. -/
theorem inBytes_eq_some {s : State} {i n : Nat} {bytes : List Byte} :
    inBytes s i n = some bytes ↔
      bytes.length = n ∧ ∀ j < n, inRead s (i + j) = bytes[j]? := by
  induction n generalizing i bytes with
  | zero =>
    simp only [inBytes, Option.some.injEq, Nat.not_lt_zero, false_imp_iff, implies_true, and_true]
    rw [eq_comm, List.length_eq_zero_iff]
  | succ n ih =>
    simp only [inBytes]
    constructor
    · intro h
      split at h
      · rename_i b rest hb hrest
        cases h
        obtain ⟨hlen, hall⟩ := ih.1 hrest
        refine ⟨by simp [hlen], fun j hj => ?_⟩
        cases j with
        | zero => simpa using hb
        | succ j =>
          have := hall j (by omega)
          rw [show i + (j + 1) = i + 1 + j by omega, this]
          simp
      · cases h
    · rintro ⟨hlen, hall⟩
      obtain _ | ⟨b, rest⟩ := bytes
      · simp at hlen
      · have hb : inRead s i = some b := by simpa using hall 0 (by omega)
        have hrest : inBytes s (i + 1) n = some rest := ih.2 ⟨by simpa using hlen, fun j hj => by
          have := hall (j + 1) (by omega)
          rw [show i + 1 + j = i + (j + 1) by omega, this]
          simp⟩
        simp [hb, hrest]

/-- Reading IN depends on `CMP_LEN` and IN alone. -/
theorem inBytes_congr {s t : State} (hlen : t.cmpLen = s.cmpLen) (hmem : t.inMem = s.inMem) (i n : Nat) :
    inBytes t i n = inBytes s i n := by
  have hread : inRead t = inRead s := funext fun j => by simp [inRead, hlen, hmem]
  induction n generalizing i with
  | zero => rfl
  | succ n ih => simp [inBytes, hread, ih]

/-- Selection does not depend on the agenda. -/
theorem selected_agenda (p : Params) (kind : ItemKind) (s : State) (ms : List Move) :
    selected p kind { s with agenda := ms } = selected p kind s := by
  cases kind <;> rfl

/-! The meanings, inverted. -/

theorem emit_eq_ok {v : Byte} {s t : State} : emit v s = .ok t ↔ s.outPos < s.tgtLen ∧ t = putByte v s := by
  unfold emit
  split <;> simp_all [eq_comm]

theorem ctrlFetch_next_iff {p : Params} {c : Byte} {s t : State} :
    ctrlFetch p c s = .next t ↔ selected p .ctrl s = true ∧
      t = ctrlTaken c s := by
  unfold ctrlFetch
  split
  · rename_i h
    exact ⟨fun h' => ⟨h, (Outcome.next.inj h').symm⟩, fun h' => congrArg _ h'.2.symm⟩
  · simp_all

theorem literal_next_iff {p : Params} {v : Byte} {s t : State} :
    literal p v s = .next t ↔ selected p .lit s = true ∧
      t = literalTaken v s := by
  unfold literal
  split
  · rename_i h
    obtain ⟨-, -, -, ho, -⟩ := itemWanted_iff.1 (selected_lit_iff.1 h).1
    rw [emit_eq_ok.2 ⟨ho, rfl⟩]
    exact ⟨fun h' => ⟨h, (Outcome.next.inj h').symm⟩, fun h' => congrArg _ h'.2.symm⟩
  · simp_all

/-- The state after an accepted reference's header step (R81, R86). -/
theorem refHeader_next_iff {p : Params} {d l : Nat} {s t : State} :
    refHeader p d l s = .next t ↔ selected p .ref s = true ∧
      ((∃ cause, refFailure p d l s = some cause ∧ t = raise cause s) ∨
        (refFailure p d l s = none ∧ t = refTaken p d l s)) := by
  unfold refHeader
  split
  · rename_i h
    cases hf : refFailure p d l s <;> simp [h, eq_comm]
  · simp_all

theorem refFailure_none_iff {p : Params} {d l : Nat} {s : State} :
    refFailure p d l s = none ↔
      p.refBytes ≤ s.cmpLen - s.inPos ∧ 1 ≤ l ∧ 1 ≤ d ∧ d ≤ s.outPos := by
  unfold refFailure tokenCut
  split_ifs <;> simp_all <;> omega

theorem copySource_eq_some {s : State} {v : Byte} : copySource s = some v ↔
    1 ≤ s.copyDist ∧ s.copyDist ≤ s.outPos ∧ s.outMem.read (s.outPos - s.copyDist) = some v := by
  unfold copySource outRead
  split_ifs with h1 h2
  · simp [h1]
  · omega
  · constructor
    · simp
    · rintro ⟨h3, h4, -⟩
      exact absurd ⟨h3, h4⟩ h1

theorem copyStep_next_iff {s t : State} : copyStep s = .next t ↔
    s.phase = .run ∧ 0 < s.copyRem ∧ s.outPos < s.tgtLen ∧
      ∃ v, copySource s = some v ∧ t = byteCopied v s := by
  unfold copyStep
  split
  · rename_i h
    cases hc : copySource s with
    | none => simp
    | some v =>
      by_cases ho : s.outPos < s.tgtLen
      · simp [emit, ho, h, eq_comm]
      · simp [emit, ho]
  · rename_i h
    constructor
    · simp
    · rintro ⟨h1, h2, -⟩
      exact absurd ⟨h1, h2⟩ h

/-! Fetching. -/

theorem fetchItem_ctrl_iff {p : Params} {s : State} {i : Instr} :
    fetchItem p .ctrl s = .item i ↔ ∃ c, inRead s s.inPos = some c ∧ i = .ctrl c := by
  unfold fetchItem
  have hne : (ItemKind.ctrl == ItemKind.ref) = false := rfl
  simp only [hne, Bool.false_and, itemBytes, inBytes]
  cases inRead s s.inPos <;> simp [decode, eq_comm]

theorem fetchItem_lit_iff {p : Params} {s : State} {i : Instr} :
    fetchItem p .lit s = .item i ↔ ∃ v, inRead s s.inPos = some v ∧ i = .lit v := by
  unfold fetchItem
  have hne : (ItemKind.lit == ItemKind.ref) = false := rfl
  simp only [hne, Bool.false_and, itemBytes, inBytes]
  cases inRead s s.inPos <;> simp [decode, eq_comm]

theorem fetchItem_ref_iff {p : Params} {s : State} {i : Instr} :
    fetchItem p .ref s = .item i ↔ tokenCut p s = false ∧
      ∃ bytes, inBytes s s.inPos p.refBytes = some bytes ∧
        i = .ref (p.refDecode bytes).1 (p.refDecode bytes).2 := by
  unfold fetchItem
  have hne : (ItemKind.ref == ItemKind.ref) = true := rfl
  simp only [hne, Bool.true_and, itemBytes]
  cases hcut : tokenCut p s with
  | true => simp
  | false =>
    cases hb : inBytes s s.inPos p.refBytes with
    | none => simp
    | some bytes =>
      obtain ⟨hlen, -⟩ := inBytes_eq_some.1 hb
      have htake : bytes.take p.refBytes = bytes := List.take_of_length_le hlen.le
      simp only [decode, hlen, lt_irrefl, if_false, htake, Bool.false_eq_true, Option.some.injEq,
        exists_eq_left', true_and, Fetched.item.injEq]
      exact eq_comm

theorem fetchItem_oversized_iff {p : Params} {s : State} {kind : ItemKind} :
    fetchItem p kind s = .oversized ↔ kind = .ref ∧ tokenCut p s = true := by
  unfold fetchItem
  split
  · rename_i h
    simp only [Bool.and_eq_true, beq_iff_eq] at h
    simp [h]
  · rename_i h
    simp only [Bool.and_eq_true, beq_iff_eq] at h
    constructor
    · intro h'
      split at h'
      · cases h'
      · split at h' <;> cases h'
    · intro h'
      exact absurd h' h

/-! One micro-step. -/

/-- Everything one micro-step of the engine can do, with its guards (40_sequencer.md R69). -/
inductive EngineStep (p : Params) (s : State) : State → Prop
  | none (h : s.phase ≠ .run) : EngineStep p s s
  | copy (v : Byte) (hrun : s.phase = .run) (hrem : 0 < s.copyRem) (hroom : s.outPos < s.tgtLen)
      (hdist : 1 ≤ s.copyDist) (hreach : s.copyDist ≤ s.outPos)
      (hread : s.outMem.read (s.outPos - s.copyDist) = some v) :
      EngineStep p s (byteCopied v s)
  | zeroLength (hrun : s.phase = .run) (hrem : s.copyRem = 0) (hlen : s.cmpLen = 0) :
      EngineStep p s (finishSuccess 0 s)
  | target (hrun : s.phase = .run) (hrem : s.copyRem = 0) (hlen : s.cmpLen ≠ 0)
      (hout : s.outPos = s.tgtLen) : EngineStep p s (finishSuccess s.tgtLen s)
  | truncated (hrun : s.phase = .run) (hrem : s.copyRem = 0) (hlen : s.cmpLen ≠ 0)
      (hout : s.outPos ≠ s.tgtLen) (hin : s.inPos = s.cmpLen) :
      EngineStep p s (raise .truncatedInput s)
  | oversized (hrun : s.phase = .run) (hrem : s.copyRem = 0) (hlen : s.cmpLen ≠ 0)
      (hout : s.outPos ≠ s.tgtLen) (hin : s.inPos ≠ s.cmpLen) (hidx : s.ctrlIdx.val < 8)
      (href : nextIsRef p s = true) (hcut : s.cmpLen - s.inPos < p.refBytes) :
      EngineStep p s (raise .oversizedToken s)
  | ctrl (c : Byte) (hsel : selected p .ctrl s = true) (hread : s.inMem.read s.inPos = some c) :
      EngineStep p s (ctrlTaken c s)
  | lit (v : Byte) (hsel : selected p .lit s = true) (hread : s.inMem.read s.inPos = some v) :
      EngineStep p s (literalTaken v s)
  | refFail (bytes : List Byte) (cause : Cause) (hsel : selected p .ref s = true)
      (hfit : p.refBytes ≤ s.cmpLen - s.inPos)
      (hbytes : inBytes s s.inPos p.refBytes = some bytes)
      (hfail : refFailure p (p.refDecode bytes).1 (p.refDecode bytes).2 s = some cause) :
      EngineStep p s (raise cause s)
  | ref (bytes : List Byte) (hsel : selected p .ref s = true)
      (hfit : p.refBytes ≤ s.cmpLen - s.inPos)
      (hbytes : inBytes s s.inPos p.refBytes = some bytes)
      (hlength : 1 ≤ (p.refDecode bytes).2) (hdist : 1 ≤ (p.refDecode bytes).1)
      (hreach : (p.refDecode bytes).1 ≤ s.outPos) :
      EngineStep p s (refTaken p (p.refDecode bytes).1 (p.refDecode bytes).2 s)

theorem tokenCut_eq_false {p : Params} {s : State} :
    tokenCut p s = false ↔ p.refBytes ≤ s.cmpLen - s.inPos := by
  simp [tokenCut]

theorem engineTurn_item {p : Params} {s : State} {kind : ItemKind} {i : Instr}
    (hd : dispatch p s = .item kind) (hf : fetchItem p kind s = .item i) :
    engineTurn p s = execWith p i s := by
  simp [engineTurn, engineTurnBy, hd, hf]

/-- Everything an engine's turn can answer. -/
theorem engineTurn_cases {p : Params} {s t : State} (h : engineTurn p s = .next t) :
    EngineStep p s t := by
  unfold engineTurn engineTurnBy at h
  cases hd : dispatch p s with
  | none =>
    simp only [hd] at h
    cases h
    refine .none fun hrun => ?_
    unfold dispatch at hd
    simp only [hrun, ne_eq, not_true_eq_false, if_false] at hd
    split_ifs at hd
  | copy =>
    simp only [hd] at h
    obtain ⟨h1, h2, h3, v, h4, rfl⟩ := copyStep_next_iff.1 h
    obtain ⟨h5, h6, h7⟩ := copySource_eq_some.1 h4
    exact .copy v h1 h2 h3 h5 h6 h7
  | finish n =>
    simp only [hd] at h
    cases h
    unfold dispatch at hd
    split_ifs at hd with h1 h2 h3 h4
    · cases hd
      exact .zeroLength (by simpa using h1) (by omega) h3
    · cases hd
      exact .target (by simpa using h1) (by omega) h3 h4
  | truncated =>
    simp only [hd] at h
    cases h
    unfold dispatch at hd
    split_ifs at hd with h1 h2 h3 h4 h5
    exact .truncated (by simpa using h1) (by omega) h3 h4 h5
  | item kind =>
    simp only [hd] at h
    cases hf : fetchItem p kind s with
    | absent => simp [hf] at h
    | oversized =>
      simp only [hf] at h
      cases h
      obtain ⟨rfl, hcut⟩ := fetchItem_oversized_iff.1 hf
      unfold dispatch at hd
      split_ifs at hd with h1 h2 h3 h4 h5 h6 h7 <;> cases hd
      exact .oversized (by simpa using h1) (by omega) h3 h4 h5 (ctrlIdx_lt_eight_iff.2 h6) h7
        (by simpa [tokenCut] using hcut)
    | item i =>
      simp only [hf] at h
      cases kind with
      | ctrl =>
        obtain ⟨c, hc, rfl⟩ := fetchItem_ctrl_iff.1 hf
        obtain ⟨hs, rfl⟩ := ctrlFetch_next_iff.1 h
        exact .ctrl c hs (inRead_eq_some.1 hc).2
      | lit =>
        obtain ⟨v, hv, rfl⟩ := fetchItem_lit_iff.1 hf
        obtain ⟨hs, rfl⟩ := literal_next_iff.1 h
        exact .lit v hs (inRead_eq_some.1 hv).2
      | ref =>
        obtain ⟨hcut, bytes, hbytes, rfl⟩ := fetchItem_ref_iff.1 hf
        obtain ⟨hs, ⟨cause, hfail, rfl⟩ | ⟨hok, rfl⟩⟩ := refHeader_next_iff.1 h
        · exact .refFail bytes cause hs (tokenCut_eq_false.1 hcut) hbytes hfail
        · obtain ⟨-, h2, h3, h4⟩ := refFailure_none_iff.1 hok
          exact .ref bytes hs (tokenCut_eq_false.1 hcut) hbytes h2 h3 h4

/-! Each case of a micro-step is answered by the engine: the other direction, one lemma a case. -/

theorem engineTurn_none {p : Params} {s : State} (h : s.phase ≠ .run) : engineTurn p s = .next s := by
  simp [engineTurn, engineTurnBy, dispatch, h]

theorem engineTurn_copy {p : Params} {s : State} {v : Byte} (hrun : s.phase = .run)
    (hrem : 0 < s.copyRem) (hroom : s.outPos < s.tgtLen) (hdist : 1 ≤ s.copyDist)
    (hreach : s.copyDist ≤ s.outPos) (hread : s.outMem.read (s.outPos - s.copyDist) = some v) :
    engineTurn p s = .next (byteCopied v s) := by
  have hd : dispatch p s = .copy := by simp [dispatch, hrun, hrem]
  simp only [engineTurn, engineTurnBy, hd]
  exact copyStep_next_iff.2 ⟨hrun, hrem, hroom, v, copySource_eq_some.2 ⟨hdist, hreach, hread⟩, rfl⟩

theorem engineTurn_zeroLength {p : Params} {s : State} (hrun : s.phase = .run) (hrem : s.copyRem = 0)
    (hlen : s.cmpLen = 0) : engineTurn p s = .next (finishSuccess 0 s) := by
  simp [engineTurn, engineTurnBy, dispatch, hrun, hrem, hlen]

theorem engineTurn_target {p : Params} {s : State} (hrun : s.phase = .run) (hrem : s.copyRem = 0)
    (hlen : s.cmpLen ≠ 0) (hout : s.outPos = s.tgtLen) :
    engineTurn p s = .next (finishSuccess s.tgtLen s) := by
  simp [engineTurn, engineTurnBy, dispatch, hrun, hrem, hlen, hout]

theorem engineTurn_truncated {p : Params} {s : State} (hrun : s.phase = .run) (hrem : s.copyRem = 0)
    (hlen : s.cmpLen ≠ 0) (hout : s.outPos ≠ s.tgtLen) (hin : s.inPos = s.cmpLen) :
    engineTurn p s = .next (raise .truncatedInput s) := by
  have hd : dispatch p s = .truncated := by
    simp [dispatch, hrun, hrem, hlen, hout, hin]
  simp [engineTurn, engineTurnBy, hd]

theorem engineTurn_oversized {p : Params} {s : State} (hsel : selected p .ref s = true)
    (hcut : s.cmpLen - s.inPos < p.refBytes) :
    engineTurn p s = .next (raise .oversizedToken s) := by
  have hf : fetchItem p .ref s = .oversized :=
    fetchItem_oversized_iff.2 ⟨rfl, by simpa [tokenCut] using hcut⟩
  simp [engineTurn, engineTurnBy, dispatch_of_selected hsel, hf]

theorem engineTurn_ctrl {p : Params} {s : State} {c : Byte} (hsel : selected p .ctrl s = true)
    (hread : s.inMem.read s.inPos = some c) :
    engineTurn p s = .next (ctrlTaken c s) := by
  have hin := (itemWanted_iff.1 (selected_ctrl_iff.1 hsel).1).2.2.2.2
  rw [engineTurn_item (dispatch_of_selected hsel)
    (fetchItem_ctrl_iff.2 ⟨c, inRead_eq_some.2 ⟨hin, hread⟩, rfl⟩)]
  exact ctrlFetch_next_iff.2 ⟨hsel, rfl⟩

theorem engineTurn_lit {p : Params} {s : State} {v : Byte} (hsel : selected p .lit s = true)
    (hread : s.inMem.read s.inPos = some v) :
    engineTurn p s = .next (literalTaken v s) := by
  have hin := (itemWanted_iff.1 (selected_lit_iff.1 hsel).1).2.2.2.2
  rw [engineTurn_item (dispatch_of_selected hsel)
    (fetchItem_lit_iff.2 ⟨v, inRead_eq_some.2 ⟨hin, hread⟩, rfl⟩)]
  exact literal_next_iff.2 ⟨hsel, rfl⟩

/-- A reference whose bytes are all there is executed with the operands `RefDecode` extracts. -/
theorem engineTurn_ref {p : Params} {s : State} {bytes : List Byte} (hsel : selected p .ref s = true)
    (hfit : p.refBytes ≤ s.cmpLen - s.inPos) (hbytes : inBytes s s.inPos p.refBytes = some bytes) :
    engineTurn p s = refHeader p (p.refDecode bytes).1 (p.refDecode bytes).2 s :=
  engineTurn_item (dispatch_of_selected hsel)
    (fetchItem_ref_iff.2 ⟨tokenCut_eq_false.2 hfit, bytes, hbytes, rfl⟩)

/-! Runs. -/

theorem engineRun_add {p : Params} {j k : Nat} {s t : State} (h : engineRun p j s = .next t) :
    engineRun p (j + k) s = engineRun p k t := by
  induction j generalizing s with
  | zero =>
    cases h
    rw [Nat.zero_add]
  | succ j ih =>
    rw [Nat.add_right_comm]
    simp only [engineRun] at h ⊢
    cases hs : engineTurn p s with
    | next u =>
      simp only [hs] at h ⊢
      exact ih h
    | fault f => simp [hs] at h
    | refused r => simp [hs] at h

/-- An engine that is not running stays as it is (60_exceptions.md R130, R136). -/
theorem engineRun_of_not_run {p : Params} {s : State} (h : s.phase ≠ .run) (k : Nat) :
    engineRun p k s = .next s := by
  induction k with
  | zero => rfl
  | succ k ih => simp [engineRun, engineTurn_none h, ih]

end Sys2Proof.Machine
end

