-- ==== Sys2Proof/Laws/HostCommands.lean ====
section
/-! SUPPORT. What START, RELEASE and the host's buffer accesses can do, said once. -/

namespace Sys2Proof.Machine

theorem inputPresent_iff {s : State} {op : StartOperands} :
    inputPresent s op = true ↔ ∀ i < op.cmpLen, (s.inMem.read i).isSome = true := by
  simp [inputPresent]

theorem buffersMeet_iff {p : Params} {h₁ n₁ h₂ n₂ : Nat} :
    buffersMeet p h₁ n₁ h₂ n₂ = true ↔ ∃ i < n₁, ∃ j < n₂, p.locate h₁ i = p.locate h₂ j := by
  simp [buffersMeet]

/-- The launch premises hold exactly when the stream is there and the buffers are disjoint (R96). -/
theorem launchRefusal_none_iff {p : Params} {s : State} {op : StartOperands} :
    launchRefusal p s op = none ↔ (∀ i < op.cmpLen, (s.inMem.read i).isSome = true) ∧
      ∀ i < op.cmpLen, ∀ j < op.tgtLen, p.locate op.srcBase i ≠ p.locate op.dstBase j := by
  have hmeet : (∀ i < op.cmpLen, ∀ j < op.tgtLen, p.locate op.srcBase i ≠ p.locate op.dstBase j) ↔
      buffersMeet p op.srcBase op.cmpLen op.dstBase op.tgtLen = false := by
    rw [← Bool.not_eq_true, buffersMeet_iff]
    exact ⟨fun h ⟨i, hi, j, hj, he⟩ => h i hi j hj he, fun h i hi j hj he => h ⟨i, hi, j, hj, he⟩⟩
  rw [hmeet, ← inputPresent_iff, launchRefusal]
  cases inputPresent s op <;> cases buffersMeet p op.srcBase op.cmpLen op.dstBase op.tgtLen <;> simp

theorem start_of_run {p : Params} {op : StartOperands} {s : State} (h : s.phase = .run) :
    start p op s = .next s := by
  simp [start, h]

/-- An effective START (R94, R105). -/
theorem start_next_iff {p : Params} {op : StartOperands} {s t : State} (h : s.phase ≠ .run) :
    start p op s = .next t ↔ launchRefusal p s op = none ∧ t = launch op s := by
  unfold start
  rw [if_neg h]
  cases launchRefusal p s op <;> simp [eq_comm]

theorem beginsCall_iff {p : Params} {op : StartOperands} {s t : State} :
    BeginsCall p op s t ↔ s.phase ≠ .run ∧ launchRefusal p s op = none ∧ t = launch op s := by
  unfold BeginsCall
  constructor
  · rintro ⟨h, h'⟩
    exact ⟨h, (start_next_iff h).1 h'⟩
  · rintro ⟨h, h'⟩
    exact ⟨h, (start_next_iff h).2 h'⟩

theorem liveResult_iff {s : State} : liveResult s = true ↔ s.phase = .done ∧ s.resSuccess = true := by
  simp [liveResult]

theorem release_live {s : State} (h : liveResult s = true) : release s = dropResult s := by
  simp [release, h]

theorem release_other {s : State} (h : liveResult s = false) : release s = s := by
  simp [release, h]

theorem hostLoadIn_next_iff {bytes : List Byte} {s t : State} : hostLoadIn bytes s = .next t ↔
    s.phase ≠ .run ∧ t = { s with inMem := Memory.ofBytes bytes } := by
  unfold hostLoadIn
  split
  · rename_i h
    exact ⟨fun h' => (by cases h'), fun h' => absurd h h'.1⟩
  · rename_i h
    exact ⟨fun h' => ⟨h, (Host.Outcome.next.inj h').symm⟩, fun h' => congrArg _ h'.2.symm⟩

theorem hostMayAccessOut_iff {s : State} {i : Nat} : hostMayAccessOut s i = true ↔
    s.phase = .done ∧ s.resSuccess = true ∧ i < s.resSize := by
  simp [hostMayAccessOut, liveResult_iff, and_assoc]

theorem outOwner_free_iff {s : State} :
    outOwner s = .hostFree ↔ s.phase ≠ .run ∧ liveResult s = false := by
  unfold outOwner liveResult
  cases s.phase <;> cases s.resSuccess <;> decide

theorem hostWriteOut_next_iff {i : Nat} {v : Byte} {s t : State} : hostWriteOut i v s = .next t ↔
    (outOwner s = .hostFree ∧ t = s) ∨
      (hostMayAccessOut s i = true ∧ t = { s with outMem := s.outMem.write i v }) := by
  have hm : hostMayAccessOut s i = true → outOwner s = .hostResult := by
    intro h
    obtain ⟨hd, hr, -⟩ := hostMayAccessOut_iff.1 h
    simp [outOwner, hd, hr]
  unfold hostWriteOut
  constructor
  · intro h
    split at h
    · cases h
    · next ho => exact .inl ⟨ho, (Host.Outcome.next.inj h).symm⟩
    · split at h
      · next hi => exact .inr ⟨hi, (Host.Outcome.next.inj h).symm⟩
      · cases h
  · rintro (⟨ho, rfl⟩ | ⟨hi, rfl⟩)
    · simp [ho]
    · simp [hm hi, hi]

/-- Everything one step can be: an engine's turn, or one of the host's moves, or a reset. -/
theorem stepWith_cases {p : Params} {s t : State} (h : stepWith p s = .next t) :
    (s.agenda = [] ∧ engineTurn p s = .next t) ∨
    ∃ m ms, s.agenda = m :: ms ∧ moveBy (execWith p) p m { s with agenda := ms } = .next t := by
  cases ha : s.agenda with
  | nil => exact .inl ⟨rfl, by rwa [stepWith_nil ha] at h⟩
  | cons m ms => exact .inr ⟨m, ms, rfl, by rwa [stepWith_cons ha] at h⟩

end Sys2Proof.Machine
end

