-- ==== Sys2Proof/Certificates/Slice0/Obligations.lean ====
section
/-! DEFINITION. The statements about the model for the provers. `p` is always an arbitrary choice of the
parameters of 00_scope.md R7; `exec` and `step` are the machine at their defaults. -/

open Sys2Proof Sys2Proof.Machine

/-! Reset and host commands. -/

/-- 10_state.md R33 (the values it specifies), 70_reset_and_hazards.md R139. The last clause gives R140's
"performs no micro-step" as a turn that answers the same state, which is the model's choice (log 8). -/
def Obligations.ResetGivesTheSpecifiedValues : Prop :=
  (State.reset.phase = .idle ∧ successByte State.reset = 0x00 ∧ State.reset.resSize = 0 ∧
    State.reset.resData = 0 ∧ errCode State.reset = 0) ∧
  ∀ (p : Params) (s : State) (ms : List Move), s.agenda = .reset :: ms →
    ∃ t, stepWith p s = .next t ∧ t.phase = .idle ∧ successByte t = 0x00 ∧ t.resSize = 0 ∧
      t.resData = 0 ∧ errCode t = 0 ∧ t.inMem = s.inMem ∧ callResult t = none ∧
      outOwner t = .hostFree ∧ engineTurn p t = .next t

/-- 44_host_commands.md R94 and R105: an effective START from IDLE or from DONE, whatever result is held.
No byte of OUT gets a value by it. That IN stays as it is whatever `src_base` names is the model's choice
(log 18), and so is the premise on the stream as the presence of its bytes (log 11). -/
def Obligations.StartWritesEveryRegister : Prop :=
  ∀ (p : Params) (s : State) (op : StartOperands) (ms : List Move), s.agenda = .start op :: ms →
    s.phase ≠ .run →
    (∀ i < op.cmpLen, (s.inMem.read i).isSome = true) →
    (∀ i < op.cmpLen, ∀ j < op.tgtLen, p.locate op.srcBase i ≠ p.locate op.dstBase j) →
    ∃ t, stepWith p s = .next t ∧
      t.srcBase = op.srcBase ∧ t.cmpLen = op.cmpLen ∧ t.tgtLen = op.tgtLen ∧ t.dstBase = op.dstBase ∧
      t.inPos = 0 ∧ t.outPos = 0 ∧ t.ctrl = 0 ∧ t.ctrlIdx = 8 ∧ t.copyDist = 0 ∧ t.copyRem = 0 ∧
      successByte t = 0x00 ∧ t.resSize = 0 ∧ t.resData = 0 ∧ errCode t = 0 ∧ t.phase = .run ∧
      t.inMem = s.inMem ∧ t.agenda = ms ∧
      ∀ j v, t.outMem.read j = some v → s.outMem.read j = some v

/-- 20_memory.md R46: "a model refuses such a launch". That a stream that is not all there (R96 a, by its
last sentence) is refused, and before that, is the model's choice (log 11). -/
def Obligations.BrokenLaunchIsRefused : Prop :=
  ∀ (p : Params) (s : State) (op : StartOperands) (ms : List Move), s.agenda = .start op :: ms →
    s.phase ≠ .run →
    ((∃ i < op.cmpLen, s.inMem.read i = none) → stepWith p s = .refused .launchInputAbsent) ∧
    ((∀ i < op.cmpLen, (s.inMem.read i).isSome = true) →
      (∃ i < op.cmpLen, ∃ j < op.tgtLen, p.locate op.srcBase i = p.locate op.dstBase j) →
      stepWith p s = .refused .launchBuffersOverlap)

/-- 44_host_commands.md R95, R103, 60_exceptions.md R133: in RUN both host commands change nothing; in
the other phases "the engine has no step of its own", given as a turn that answers the same state, which
is the model's choice (log 8). -/
def Obligations.HostCommandsAreIgnoredDuringACall : Prop :=
  ∀ (p : Params) (s : State),
    (s.phase = .run →
      (∀ op ms, s.agenda = .start op :: ms → stepWith p s = .next { s with agenda := ms }) ∧
      (∀ ms, s.agenda = .release :: ms → stepWith p s = .next { s with agenda := ms })) ∧
    (s.phase ≠ .run → engineTurn p s = .next s)

/-- 44_host_commands.md R102: RELEASE of a live result; nothing else changes, and every register R33
specifies is as after reset. -/
def Obligations.ReleaseDropsALiveResult : Prop :=
  ∀ (p : Params) (s : State) (ms : List Move), s.agenda = .release :: ms →
    s.phase = .done → successByte s = 0x01 →
    stepWith p s = .next
      { s with resSuccess := false, resSize := 0, resData := 0, err := none, phase := .idle,
               agenda := ms }

/-- 44_host_commands.md R103: RELEASE anywhere else is a no-op. -/
def Obligations.ReleaseElsewhereIsANoOp : Prop :=
  ∀ (p : Params) (s : State) (ms : List Move), s.agenda = .release :: ms →
    ¬ (s.phase = .done ∧ successByte s = 0x01) → stepWith p s = .next { s with agenda := ms }

/-- 20_memory.md R50: who may touch the buffers when. During a call a host write of IN or OUT is refused
(the model has such moves by its own choice, and refuses a write at every index, log 12; 93 V4: "if
modelled, refuse") and a host read of OUT gives no value (log 17); with a live result the host reads and writes OUT below `RES_SIZE`; after a
failure a host read gives no value. -/
def Obligations.HostAccessToBuffersFollowsOwnership : Prop :=
  ∀ (p : Params) (s : State) (ms : List Move),
    (s.phase = .run →
      (∀ bytes, s.agenda = .loadIn bytes :: ms → stepWith p s = .refused .hostWritesInputDuringCall) ∧
      (∀ i v, s.agenda = .writeOut i v :: ms → stepWith p s = .refused .hostTouchesOutput) ∧
      ∀ i, hostReadOut s i = none) ∧
    (s.phase = .done → s.resSuccess = true → ∀ i < s.resSize,
      hostReadOut s i = s.outMem.read i ∧
      ∀ v, s.agenda = .writeOut i v :: ms → ∃ t, stepWith p s = .next t ∧
        t.outMem.read i = some v ∧ (∀ j, j ≠ i → t.outMem.read j = s.outMem.read j) ∧
        t = { s with agenda := ms, outMem := t.outMem }) ∧
    (s.phase = .done → s.resSuccess = false → ∀ i, hostReadOut s i = none)

/-- 10_state.md R27, R28: the host reads registers 4 to 8 and no other. -/
def Obligations.HostReadsRegistersFourToEight : Prop :=
  ∀ (s : State) (r : Reg),
    hostReadReg s r = if 4 ≤ r.number ∧ r.number ≤ 8 then some (readReg s r) else none

/-- 44_host_commands.md R101: which steps change the owner of OUT. -/
def Obligations.OwnershipOfOutChangesOnlyByRule : Prop :=
  ∀ (p : Params) (s t : State), stepWith p s = .next t →
    (outOwner s ≠ .engine → outOwner t = .engine →
      ∃ op ms, s.agenda = .start op :: ms ∧ t = launch op { s with agenda := ms }) ∧
    (outOwner s = .engine → outOwner t = .hostResult → t.resSuccess = true ∧ t.phase = .done ∧
      (s.agenda = [] ∨ ∃ ms, s.agenda = .engine :: ms)) ∧
    (outOwner s = .engine → outOwner t = .hostFree →
      (t.err ≠ none ∧ t.phase = .done ∧ (s.agenda = [] ∨ ∃ ms, s.agenda = .engine :: ms)) ∨
        ∃ ms, s.agenda = .reset :: ms) ∧
    (outOwner s = .hostResult → outOwner t ≠ .hostResult →
      (∃ op ms, s.agenda = .start op :: ms) ∨ (∃ ms, s.agenda = .release :: ms) ∨
        ∃ ms, s.agenda = .reset :: ms) ∧
    (outOwner s = .hostFree → outOwner t ≠ .hostResult)

/-! Dispatch and the stop conditions. -/

/-- 40_sequencer.md R69: the order of the tests. -/
def Obligations.DispatchTakesTheFirstTestThatHolds : Prop :=
  ∀ (p : Params) (s : State),
    (s.phase ≠ .run → dispatch p s = .none) ∧
    (s.phase = .run → 0 < s.copyRem → dispatch p s = .copy) ∧
    (s.phase = .run → s.copyRem = 0 →
      (s.cmpLen = 0 → dispatch p s = .finish 0) ∧
      (s.cmpLen ≠ 0 →
        (s.outPos = s.tgtLen → dispatch p s = .finish s.tgtLen) ∧
        (s.outPos ≠ s.tgtLen →
          (s.inPos = s.cmpLen → dispatch p s = .truncated) ∧
          (s.inPos ≠ s.cmpLen →
            (s.ctrlIdx.val = 8 → dispatch p s = .item .ctrl) ∧
            (s.ctrlIdx.val < 8 → flag p s.ctrl s.ctrlIdx.val ≠ p.refFlag →
              dispatch p s = .item .lit) ∧
            (s.ctrlIdx.val < 8 → flag p s.ctrl s.ctrlIdx.val = p.refFlag →
              dispatch p s = .item .ref)))))

/-- 40_sequencer.md R70: zero-length input. -/
def Obligations.ZeroLengthInputFinishesWithSizeZero : Prop :=
  ∀ (p : Params) (s : State), s.phase = .run → s.copyRem = 0 → s.cmpLen = 0 →
    engineTurn p s = .next
      { s with resSuccess := true, resSize := 0, resData := s.dstBase, err := none, phase := .done }

/-- 40_sequencer.md R71: target reached, whatever input and flags are left. -/
def Obligations.TargetReachedFinishesWithTheTarget : Prop :=
  ∀ (p : Params) (s : State), s.phase = .run → s.copyRem = 0 → 0 < s.cmpLen → s.outPos = s.tgtLen →
    engineTurn p s = .next
      { s with resSuccess := true, resSize := s.tgtLen, resData := s.dstBase, err := none,
               phase := .done }

/-- 40_sequencer.md R75: input exhausted at an item boundary, the flag not examined. -/
def Obligations.ExhaustedInputRaisesTruncatedInput : Prop :=
  ∀ (p : Params) (s : State), s.phase = .run → s.copyRem = 0 → 0 < s.cmpLen → s.outPos < s.tgtLen →
    s.inPos = s.cmpLen →
    ∃ t, engineTurn p s = .next t ∧ errCode t = 1 ∧ callResult t = some .failure ∧
      t = { s with resSuccess := false, resSize := 0, resData := 0, err := some .truncatedInput,
                   phase := .done }

/-! The items. -/

/-- 40_sequencer.md R72: CTRL, with its whole frame; it completes wherever it is selected, and the engine
runs it with the byte at `IN_POS`, under every parameter choice. -/
def Obligations.CtrlLatchesTheControlByte : Prop :=
  ∀ (c : Byte) (s : State), s.phase = .run → s.copyRem = 0 → 0 < s.cmpLen → s.outPos < s.tgtLen →
    s.inPos < s.cmpLen → s.ctrlIdx = 8 →
    exec (.ctrl c) s = .next { s with ctrl := c, inPos := s.inPos + 1, ctrlIdx := 0 } ∧
    ∀ p : Params, s.inMem.read s.inPos = some c →
      engineTurn p s = .next { s with ctrl := c, inPos := s.inPos + 1, ctrlIdx := 0 }

/-- 41_literal.md R79: LIT, with its frame; it completes wherever it is selected. -/
def Obligations.LitWritesOneByteAtTheCursor : Prop :=
  ∀ (v : Byte) (s : State), s.phase = .run → s.copyRem = 0 → 0 < s.cmpLen → s.outPos < s.tgtLen →
    s.inPos < s.cmpLen → s.ctrlIdx.val < 8 → flag params s.ctrl s.ctrlIdx.val ≠ params.refFlag →
    ∃ t, exec (.lit v) s = .next t ∧
      t.outMem.read s.outPos = some v ∧
      (∀ j, j ≠ s.outPos → t.outMem.read j = s.outMem.read j) ∧
      t.inPos = s.inPos + 1 ∧ t.outPos = s.outPos + 1 ∧ t.ctrlIdx.val = s.ctrlIdx.val + 1 ∧
      t = { s with outMem := t.outMem, inPos := t.inPos, outPos := t.outPos, ctrlIdx := t.ctrlIdx }

/-- 41_literal.md R79 over any parameters, with the byte at `IN_POS`: the engine's LIT micro-step. -/
def Obligations.EngineCopiesALiteralByte : Prop :=
  ∀ (p : Params) (v : Byte) (s : State), s.phase = .run → s.copyRem = 0 → 0 < s.cmpLen →
    s.outPos < s.tgtLen → s.inPos < s.cmpLen → s.ctrlIdx.val < 8 →
    flag p s.ctrl s.ctrlIdx.val ≠ p.refFlag → s.inMem.read s.inPos = some v →
    ∃ t, engineTurn p s = .next t ∧
      (∀ j, t.outMem.read j = if j = s.outPos then some v else s.outMem.read j) ∧
      t.inPos = s.inPos + 1 ∧ t.outPos = s.outPos + 1 ∧ t.ctrlIdx.val = s.ctrlIdx.val + 1 ∧
      t = { s with outMem := t.outMem, inPos := t.inPos, outPos := t.outPos, ctrlIdx := t.ctrlIdx }

/-- 42_reference.md R81 and R86: an accepted REF, with its frame; it completes wherever it is selected,
fits the input, and names bytes already written. -/
def Obligations.RefArmsTheCopySequencer : Prop :=
  ∀ (d l : Nat) (s : State), s.phase = .run → s.copyRem = 0 → 0 < s.cmpLen → s.outPos < s.tgtLen →
    s.inPos < s.cmpLen → s.ctrlIdx.val < 8 → flag params s.ctrl s.ctrlIdx.val = params.refFlag →
    params.refBytes ≤ s.cmpLen - s.inPos → 1 ≤ l → 1 ≤ d → d ≤ s.outPos →
    ∃ t, exec (.ref d l) s = .next t ∧
      t.copyDist = d ∧ t.copyRem = min l (s.tgtLen - s.outPos) ∧ 1 ≤ t.copyRem ∧
      t.inPos = s.inPos + params.refBytes ∧ t.ctrlIdx.val = s.ctrlIdx.val + 1 ∧
      t = { s with copyDist := t.copyDist, copyRem := t.copyRem, inPos := t.inPos,
                   ctrlIdx := t.ctrlIdx }

/-- 42_reference.md R81 over any parameters: the header step reads `REF_BYTES` bytes of IN in ascending
order, extracts `(d, l)` from them, and takes the first of the checks that holds, or arms the copy. -/
def Obligations.RefHeaderStepFollowsItsPseudocode : Prop :=
  ∀ (p : Params) (s : State) (bytes : List Byte) (d l : Nat), s.phase = .run → s.copyRem = 0 →
    0 < s.cmpLen → s.outPos < s.tgtLen → s.inPos < s.cmpLen → s.ctrlIdx.val < 8 →
    flag p s.ctrl s.ctrlIdx.val = p.refFlag →
    (s.cmpLen - s.inPos < p.refBytes → engineTurn p s = .next (raise .oversizedToken s)) ∧
    (p.refBytes ≤ s.cmpLen - s.inPos → bytes.length = p.refBytes →
      (∀ j < p.refBytes, s.inMem.read (s.inPos + j) = bytes[j]?) → p.refDecode bytes = (d, l) →
      (l = 0 ∨ d = 0 → engineTurn p s = .next (raise .invalidToken s)) ∧
      (1 ≤ l → 1 ≤ d → s.outPos < d → engineTurn p s = .next (raise .corruptReference s)) ∧
      (1 ≤ l → 1 ≤ d → d ≤ s.outPos → ∃ t, engineTurn p s = .next t ∧
        t.copyDist = d ∧ t.copyRem = min l (s.tgtLen - s.outPos) ∧ 1 ≤ t.copyRem ∧
        t.inPos = s.inPos + p.refBytes ∧ t.ctrlIdx.val = s.ctrlIdx.val + 1 ∧
        t = { s with copyDist := t.copyDist, copyRem := t.copyRem, inPos := t.inPos,
                     ctrlIdx := t.ctrlIdx }))

/-- 42_reference.md R83, R84, R85 with the order of 60_exceptions.md R125 and the register writes of
R126: a rejected REF, over any parameters. Nothing but the result registers and PHASE changes (R127). -/
def Obligations.RejectedRefRaisesTheFirstFailure : Prop :=
  ∀ (p : Params) (d l : Nat) (s : State), s.phase = .run → s.copyRem = 0 → 0 < s.cmpLen →
    s.outPos < s.tgtLen → s.inPos < s.cmpLen → s.ctrlIdx.val < 8 →
    flag p s.ctrl s.ctrlIdx.val = p.refFlag →
    (s.cmpLen - s.inPos < p.refBytes →
      execWith p (.ref d l) s = .next
        { s with resSuccess := false, resSize := 0, resData := 0, err := some .oversizedToken,
                 phase := .done }) ∧
    (p.refBytes ≤ s.cmpLen - s.inPos → l = 0 ∨ d = 0 →
      execWith p (.ref d l) s = .next
        { s with resSuccess := false, resSize := 0, resData := 0, err := some .invalidToken,
                 phase := .done }) ∧
    (p.refBytes ≤ s.cmpLen - s.inPos → 1 ≤ l → s.outPos < d →
      execWith p (.ref d l) s = .next
        { s with resSuccess := false, resSize := 0, resData := 0, err := some .corruptReference,
                 phase := .done })

/-- 42_reference.md R83 as the whole step sees it: with too few bytes left OversizedToken is raised
whatever those bytes are, and whether or not they are there. -/
def Obligations.CutTokenRaisesOversizedUnread : Prop :=
  ∀ (p : Params) (s : State), selected p .ref s = true → s.cmpLen - s.inPos < p.refBytes →
    ∀ m : Memory, ∃ t, engineTurn p { s with inMem := m } = .next t ∧ errCode t = 3 ∧
      t = { s with inMem := m, resSuccess := false, resSize := 0, resData := 0,
                   err := some .oversizedToken, phase := .done }

/-- 43_copy.md R88: COPY, one byte, with its frame. -/
def Obligations.CopyMovesOneByte : Prop :=
  ∀ (p : Params) (s : State) (v : Byte), s.phase = .run → 0 < s.copyRem → 1 ≤ s.copyDist →
    s.copyDist ≤ s.outPos → s.outPos < s.tgtLen →
    s.outMem.read (s.outPos - s.copyDist) = some v →
    ∃ t, engineTurn p s = .next t ∧
      t.outMem.read s.outPos = some v ∧
      (∀ j, j ≠ s.outPos → t.outMem.read j = s.outMem.read j) ∧
      t.outPos = s.outPos + 1 ∧ t.copyRem = s.copyRem - 1 ∧
      t = { s with outMem := t.outMem, outPos := t.outPos, copyRem := t.copyRem }

/-- 43_copy.md R90: the closed form of a whole copy, the bytes that end at `p - 1` repeated. -/
def Obligations.CopyRepeatsTheLastBytesPeriodically : Prop :=
  ∀ (p : Params) (s : State), Inv s → s.phase = .run → 0 < s.copyRem →
    ∃ t, engineRun p s.copyRem s = .next t ∧
      t.outPos = s.outPos + s.copyRem ∧ t.copyRem = 0 ∧ t.phase = .run ∧
      (∀ k < s.copyRem, t.outMem.read (s.outPos + k) =
        s.outMem.read (s.outPos - s.copyDist + k % s.copyDist)) ∧
      (∀ i < s.outPos, t.outMem.read i = s.outMem.read i) ∧
      t = { s with outMem := t.outMem, outPos := t.outPos, copyRem := t.copyRem }

/-! Encoding. -/

/-- 40_sequencer.md R73. -/
def Obligations.FlagPicksTheBitOfTheOrder : Prop :=
  ∀ (p : Params) (c : Byte) (k : Fin 8),
    (p.ctrlFirst = .lsb → flag p c k.val = c.getLsb k) ∧
    (p.ctrlFirst = .msb → flag p c k.val = c.getMsb k)

/-- 30_encoding.md R68: every flag of a control byte made from a list of flags reads back, under every
bit order and polarity; unlisted flags read as literals (R66). -/
def Obligations.ControlByteCarriesItsFlags : Prop :=
  ∀ (p : Params) (isRef : List Bool) (k : Nat), k < 8 →
    ((flag p (ctrlByteOf p isRef) k = p.refFlag) ↔ isRef.getD k false = true)

/-- 42_reference.md R82 in the bit fields of 30_encoding.md R57, for general MATCH_BITS and MATCH_MIN. -/
def Obligations.ExtractorReadsTheTwoFields : Prop :=
  ∀ (lay : RefLayout) (b0 b1 : Byte),
    lay.extract [b0, b1] =
      (((b0 ++ b1 : BitVec 16).extractLsb' 0 (16 - lay.matchBits)).toNat,
       ((b0 ++ b1 : BitVec 16).extractLsb' (16 - lay.matchBits) lay.matchBits).toNat + lay.matchMin)

/-- 30_encoding.md R57, R58 at the defaults, in the bytes. -/
def Obligations.DefaultExtractorByBytes : Prop :=
  ∀ b0 b1 : Byte,
    params.refDecode [b0, b1] =
      ((b0.extractLsb' 0 2 ++ b1 : BitVec 10).toNat, (b0.extractLsb' 2 6).toNat + 3)

/-- Decoding an encoded well-formed item gives it back, with the bytes after it, under every layout, bit
order and polarity (30_encoding.md R68: "the inverse of rules R54 to R58"). -/
def Obligations.DecodeOfEncodeIsTheItem : Prop :=
  ∀ (lay : RefLayout) (order : BitOrder) (refFlag : Bool) (i : Instr) (rest : List Byte),
    i.wf lay = true →
    decode (lay.params order refFlag) i.kind (encode lay i ++ rest) = .ok (i, rest)

/-- Every byte string of an item's length has one meaning: the decoded item is well formed and encodes
to the same bytes. -/
def Obligations.EncodeOfDecodeIsTheBytes : Prop :=
  ∀ (lay : RefLayout) (order : BitOrder) (refFlag : Bool) (kind : ItemKind) (bytes rest : List Byte)
    (i : Instr), decode (lay.params order refFlag) kind bytes = .ok (i, rest) →
    i.wf lay = true ∧ i.kind = kind ∧ encode lay i ++ rest = bytes

/-- Words written out from the formats of 30_encoding.md R54, R57 and the table of 95 T14. That a lone
8-bit word is read as CTRL, where R59 and R60 leave it CTRL or LIT, is the model's choice (log 10); the
defaults are those of log 3. -/
def Obligations.OpcodeTableWordsDecode : Prop :=
  decodeTableWord 8 0x1D = some (.ctrl 0x1D) ∧
  decodeTableWord 16 0x0801 = some (.ref 1 5) ∧
  decodeTableWord 16 0x8C10 = some (.ref 16 38) ∧
  decodeTableWord 16 0xFBFF = some (.ref 1023 65)

/-- The items at `IN_POS` run as decoded: where the sequencer selects a kind and the bytes there decode
to `i`, one step is `exec i`, at once when the agenda is empty and after taking the engine's move off it
otherwise. -/
def Obligations.StepRunsTheDecodedItem : Prop :=
  ∀ (s : State) (kind : ItemKind) (bytes rest : List Byte) (i : Instr),
    selected params kind s = true →
    inBytes s s.inPos (itemBytes params kind) = some bytes →
    decode params kind bytes = .ok (i, rest) →
    (s.agenda = [] → step s = exec i s) ∧
    (∀ ms, s.agenda = .engine :: ms → step s = exec i { s with agenda := ms })

/-- The same over any parameters. -/
def Obligations.EngineTurnRunsTheDecodedItem : Prop :=
  ∀ (p : Params) (s : State) (kind : ItemKind) (bytes rest : List Byte) (i : Instr),
    selected p kind s = true →
    inBytes s s.inPos (itemBytes p kind) = some bytes →
    decode p kind bytes = .ok (i, rest) → engineTurn p s = execWith p i s

/-- `exec` and `step` are the parametric machine at the defaults of 00_scope.md R7 (log 3). -/
def Obligations.ExecAndStepAreTheDefaultMachine : Prop :=
  (∀ i s, exec i s = execWith params i s) ∧ ∀ s, step s = stepWith params s

/-! Whole-machine rules. -/

/-- 40_sequencer.md R76: the table of what a micro-step does to the program counter. -/
def Obligations.ProgramCounterMovesByTheTable : Prop :=
  (∀ (p : Params) (op : StartOperands) (s t : State), BeginsCall p op s t →
    t.inPos = 0 ∧ t.ctrlIdx.val = 8) ∧
  (∀ (p : Params) (s t : State), engineTurn p s = .next t →
    match dispatch p s with
    | .item .ctrl => t.inPos = s.inPos + 1 ∧ t.ctrlIdx.val = 0
    | .item .lit => t.inPos = s.inPos + 1 ∧ t.ctrlIdx.val = s.ctrlIdx.val + 1
    | .item .ref =>
      (t.phase = .done ∧ t.inPos = s.inPos ∧ t.ctrlIdx = s.ctrlIdx) ∨
        (t.phase = .run ∧ t.inPos = s.inPos + p.refBytes ∧ t.ctrlIdx.val = s.ctrlIdx.val + 1)
    | .copy => t.inPos = s.inPos ∧ t.ctrlIdx = s.ctrlIdx
    | .finish _ => t.inPos = s.inPos ∧ t.ctrlIdx = s.ctrlIdx
    | .truncated => t.inPos = s.inPos ∧ t.ctrlIdx = s.ctrlIdx
    | .none => t.inPos = s.inPos ∧ t.ctrlIdx = s.ctrlIdx)

/-- 20_memory.md R37 (the engine never writes IN) and 10_state.md R11, R12 (nor an operand register). -/
def Obligations.EngineNeverWritesInputOrOperands : Prop :=
  ∀ (p : Params) (s t : State), engineTurn p s = .next t →
    (∀ i, t.inMem.read i = s.inMem.read i) ∧ t.inMem = s.inMem ∧ t.srcBase = s.srcBase ∧
    t.cmpLen = s.cmpLen ∧ t.tgtLen = s.tgtLen ∧ t.dstBase = s.dstBase ∧ t.agenda = s.agenda

/-- 20_memory.md R39: the engine writes OUT only at `OUT_POS < TGT_LEN`, advancing it in the same
micro-step, and exactly the indices below `OUT_POS` have been written. -/
def Obligations.OutputIsWrittenInAscendingOrder : Prop :=
  ∀ (p : Params) (s t : State), Inv s → engineTurn p s = .next t →
    ((t.outPos = s.outPos ∧ ∀ j, t.outMem.read j = s.outMem.read j) ∨
      (t.outPos = s.outPos + 1 ∧ s.outPos < s.tgtLen ∧
        ∀ j, j ≠ s.outPos → t.outMem.read j = s.outMem.read j)) ∧
    ∀ j, (t.outMem.read j).isSome = true ↔ j < t.outPos

/-- 44_host_commands.md R97, R99, R100 with 20_memory.md R49: how a call ends in success. -/
def Obligations.SuccessReportsTheWrittenBytes : Prop :=
  ∀ (p : Params) (s t : State), Inv s → s.phase = .run → engineTurn p s = .next t →
    t.phase = .done → t.resSuccess = true →
    ((s.cmpLen ≠ 0 ∧ t.resSize = s.tgtLen) ∨ (s.cmpLen = 0 ∧ t.resSize = 0)) ∧
    callResult t = some (.success t.resSize s.dstBase) ∧ errCode t = 0 ∧
    t = { s with resSuccess := true, resSize := t.resSize, resData := s.dstBase, err := none,
                 phase := .done } ∧
    (∀ i, (i < t.resSize → ∃ v, s.outMem.read i = some v ∧ hostReadOut t i = some v) ∧
      (t.resSize ≤ i → hostReadOut t i = none)) ∧
    (s.cmpLen = 0 → ∀ i, t.outMem.read i = none)

/-- 60_exceptions.md R126, R127, R128 and 45_decode_function.md R119: how a call ends in failure. The
last clause gives R130's "no enabled step" as a turn that answers the same state, which is the model's
choice (log 8). -/
def Obligations.FailureIsPreciseAndExposesNothing : Prop :=
  ∀ (p : Params) (s t : State), s.phase = .run → engineTurn p s = .next t →
    t.phase = .done → t.resSuccess = false →
    ∃ cause, t = { s with resSuccess := false, resSize := 0, resData := 0, err := some cause,
                          phase := .done } ∧
      callResult t = some .failure ∧ (∀ i, hostReadOut t i = none) ∧ engineTurn p t = .next t

/-- 60_exceptions.md R130, 70_reset_and_hazards.md R150: once a call is over "the engine has no enabled
step", so its results are final until the host acts. That a turn of the engine there answers the same
state is the model's choice (log 8). -/
def Obligations.AFinishedCallIsFinal : Prop :=
  ∀ (p : Params) (s : State), s.phase = .done → ∀ k, engineRun p k s = .next s

/-- 45_decode_function.md R110, R111; 70_reset_and_hazards.md R149: a running engine always has exactly
one micro-step, it is never out of bounds, and it moves. -/
def Obligations.ARunningEngineAlwaysMoves : Prop :=
  ∀ (p : Params) (s : State), Inv s → s.phase = .run → ∃ t, engineTurn p s = .next t ∧ t ≠ s

/-! Invariants. -/

/-- The invariants of Safety.lean hold after reset, of one engine and of a platform of any number (the
reset values of the registers R33 leaves unspecified are the model's, log 4). -/
def Obligations.InvariantHoldsAtReset : Prop :=
  Inv State.reset ∧
    ∀ (n : Nat) (p : Params), PlatformInv p (Vector.replicate n State.reset : Platform n)

/-- Every step of the machine, engine, host or reset, keeps the invariant (10_state.md R32, 20_memory.md
R39), under every choice of the parameters. R32 speaks of the states reachable from a START. That a reset
keeps the invariant rests on the values the model gives there to the registers R33 leaves unspecified (log
4, log 15: the model's choice; another value R33 allows could break it); that the stream of a call is
supplied is the model's reading of R96 (a) (log 11, log 18); and the host's own moves are the model's
(log 12). -/
def Obligations.EveryStepKeepsTheInvariant : Prop :=
  ∀ (p : Params) (s t : State), Inv s → stepWith p s = .next t → Inv t

/-- Every step keeps both memories in canonical form. -/
def Obligations.EveryStepKeepsMemoriesCanonical : Prop :=
  ∀ (p : Params) (s t : State), MemoriesWf s → stepWith p s = .next t → MemoriesWf t

/-- 10_state.md R32: "every `LEN_W`-bit register holds a value below `2^LEN_W` and no micro-step
overflows", for every width, every register of R27 and every move. The registers are naturals by log 1;
what a reset move leaves in the unspecified ones is the model's choice (log 4, log 15). -/
def Obligations.EveryStepKeepsRegistersInRange : Prop :=
  ∀ (w : Widths) (p : Params) (s t : State), Inv s → InRange w s → stepWith p s = .next t →
    InRange w t

/-- 40_sequencer.md R78: during a call, `CTRL` is the last control byte fetched, `CTRL_IDX` counts the
tokens accepted since, and token number `n` is classified by flag `n mod 8` of control byte number
`n div 8`. -/
def Obligations.TokensAreClassifiedByTheirControlByte : Prop :=
  ∀ (p : Params) (op : StartOperands) (s t u : State) (k : Nat), BeginsCall p op s t →
    engineRun p k t = .next u → u.phase = .run →
    let items := itemsRun p k t
    ((controlsOf items = [] ∧ tokensOf items = [] ∧ u.ctrlIdx.val = 8) ∨
      ((controlsOf items).getLast? = some u.ctrl ∧
        (tokensOf items).length + 8 = 8 * (controlsOf items).length + u.ctrlIdx.val)) ∧
    ∀ n i, (tokensOf items)[n]? = some i →
      ∃ c, (controlsOf items)[n / 8]? = some c ∧
        (flag p c (n % 8) = p.refFlag ↔ i.kind = .ref)

/-! Whole calls. -/

/-- 45_decode_function.md R110: a call ends after at most `c + t + 1` micro-steps, running until then. -/
def Obligations.EveryCallEndsWithinTheBound : Prop :=
  ∀ (p : Params) (op : StartOperands) (s t : State), BeginsCall p op s t →
    ∃ k ≤ op.cmpLen + op.tgtLen + 1, ∃ u, engineRun p k t = .next u ∧ u.phase = .done ∧
      ∀ j < k, ∃ v, engineRun p j t = .next v ∧ v.phase = .run

/-- 45_decode_function.md R111: however long the engine runs from a START, no access is out of bounds
and no byte is read that was not there: the run meets no fault and no refusal. -/
def Obligations.EveryCallIsSafe : Prop :=
  ∀ (p : Params) (op : StartOperands) (s t : State), BeginsCall p op s t → ∀ k, EngineSafe p k t

/-- 45_decode_function.md R108: the micro-step machine agrees with `Decode`. -/
def Obligations.TheEngineComputesDecode : Prop :=
  ∀ (p : Params) (op : StartOperands) (input : List Byte) (s t : State), BeginsCall p op s t →
    InputIs s op input →
    ∃ k u, engineRun p k t = .next u ∧ u.phase = .done ∧
      u.inPos = (decodeRun p input op.cmpLen op.tgtLen).inPos ∧
      match decodeCall p input op.cmpLen op.tgtLen with
      | .success bytes =>
        successByte u = 0x01 ∧ u.resSize = bytes.length ∧ u.resData = op.dstBase ∧ errCode u = 0 ∧
          ∀ i < bytes.length, u.outMem.read i = bytes[i]?
      | .failure cause =>
        successByte u = 0x00 ∧ u.resSize = 0 ∧ u.resData = 0 ∧ errCode u = cause.code

/-- 44_host_commands.md R106, 45_decode_function.md R109, R120: what the host sees of a call depends on
`CMP_LEN`, `TGT_LEN` and the input bytes alone (and `RES_DATA` on `DST_BASE`), whatever ran before. -/
def Obligations.CallsAreStateless : Prop :=
  ∀ (p : Params) (op₁ op₂ : StartOperands) (s₁ s₂ t₁ t₂ : State),
    BeginsCall p op₁ s₁ t₁ → BeginsCall p op₂ s₂ t₂ →
    op₁.cmpLen = op₂.cmpLen → op₁.tgtLen = op₂.tgtLen →
    (∀ i < op₁.cmpLen, s₁.inMem.read i = s₂.inMem.read i) →
    ∀ k u₁, engineRun p k t₁ = .next u₁ → ∃ u₂, engineRun p k t₂ = .next u₂ ∧
      (∀ r, r ≠ Reg.resData → hostReadReg u₁ r = hostReadReg u₂ r) ∧
      (∀ i, hostReadOut u₁ i = hostReadOut u₂ i) ∧
      (op₁.dstBase = op₂.dstBase → SameToHost u₁ u₂)

/-- 45_decode_function.md R121: the output is the concatenation of the consumed items' expansions, cut to
the size reported. -/
def Obligations.OutputIsTheExpansionOfTheItems : Prop :=
  ∀ (p : Params) (op : StartOperands) (s t u : State) (k : Nat), BeginsCall p op s t →
    engineRun p k t = .next u → u.phase = .done → u.resSuccess = true →
    u.resSize ≤ (expandItems (itemsRun p k t)).length ∧
    ∀ i < u.resSize, u.outMem.read i = (expandItems (itemsRun p k t))[i]?

/-- 45_decode_function.md R112: the length of a success. -/
def Obligations.DecodeSuccessHasTheTargetLength : Prop :=
  ∀ (p : Params) (input bytes : List Byte) (c t : Nat), c ≤ input.length →
    decodeCall p input c t = .success bytes →
    (c = 0 ∧ bytes = []) ∨ (c ≠ 0 ∧ bytes.length = t)

/-- 45_decode_function.md R113: zero-length input. -/
def Obligations.DecodeOfNothingIsEmptySuccess : Prop :=
  ∀ (p : Params) (input : List Byte) (t : Nat), decodeCall p input 0 t = .success []

/-- 45_decode_function.md R114: truncation of a stream consumed whole. -/
def Obligations.TruncatedStreamFails : Prop :=
  ∀ (p : Params) (input bytes : List Byte) (c t c' : Nat), c ≤ input.length → 1 ≤ t →
    decodeRun p input c t = ⟨.success bytes, c⟩ → 1 ≤ c' → c' < c →
    decodeCall p input c' t = .failure .truncatedInput ∨
      decodeCall p input c' t = .failure .oversizedToken

/-- 45_decode_function.md R117, first half, for `c >= 1` (a zero-length input succeeds whatever the
target, so the rule's first sentence needs that; 90_conflicts.md C1): unconsumed input does not matter. -/
def Obligations.UnconsumedInputDoesNotMatter : Prop :=
  ∀ (p : Params) (input input' bytes : List Byte) (c c' t q : Nat), c ≤ input.length → 1 ≤ c →
    decodeRun p input c t = ⟨.success bytes, q⟩ → q ≤ c' → c' ≤ input'.length →
    (∀ i < q, input'[i]? = input[i]?) →
    decodeCall p input' c' t = .success bytes

/-- 45_decode_function.md R117, second half: a smaller target yields a prefix. -/
def Obligations.SmallerTargetYieldsAPrefix : Prop :=
  ∀ (p : Params) (input bytes : List Byte) (c t t' : Nat), c ≤ input.length → 1 ≤ c → t' ≤ t →
    decodeCall p input c t = .success bytes →
    decodeCall p input c t' = .success (bytes.take t')

/-- 45_decode_function.md R115: eight literals come through verbatim, under every parameter choice. -/
def Obligations.EightLiteralsComeThroughVerbatim : Prop :=
  ∀ (p : Params) (c : Byte) (xs : List Byte), (∀ k < 8, flag p c k ≠ p.refFlag) → xs.length = 8 →
    decodeCall p (c :: xs) 9 8 = .success xs

/-- 45_decode_function.md R116, 43_copy.md R89: a literal and an overlapping reference of distance 1 and
length 5, whatever bytes the parameters write that reference with. -/
def Obligations.OverlappingReferenceRepeatsTheByte : Prop :=
  ∀ (p : Params) (c a : Byte) (token trailing : List Byte), flag p c 0 ≠ p.refFlag →
    flag p c 1 = p.refFlag → token.length = p.refBytes → p.refDecode token = (1, 5) →
    decodeCall p (c :: a :: token ++ trailing)
      (2 + p.refBytes + trailing.length) 6 = .success (List.replicate 6 a)

/-- 45_decode_function.md R118 and R121 with 30_encoding.md R68: a list of legal tokens, written down with
its control bytes, decodes to the tokens' expansion, whole. -/
def Obligations.EncodedTokensDecodeToTheirExpansion : Prop :=
  ∀ (lay : RefLayout) (order : BitOrder) (refFlag : Bool) (toks : List Instr),
    tokensLegal lay 0 toks = true →
    decodeCall (lay.params order refFlag) (encodeTokens (lay.params order refFlag) lay toks)
      (encodeTokens (lay.params order refFlag) lay toks).length (expandItems toks).length =
        .success (expandItems toks)

/-! Several engines. -/

/-- 60_exceptions.md R135: a step of one engine moves its own as a single engine moves, and leaves every
other engine as it is. That the host's write of a byte, a move the model has by its own choice (log 12),
changes in the others that byte of a live result at the location and nothing else is the model's choice
(log 16), as are that it leaves a stream placed in another engine's IN as it is (log 18) and, after a
reset and before the next START, the location itself, which follows from the reset value of `DST_BASE`
(log 4). -/
def Obligations.EnginesShareNothing : Prop :=
  ∀ (n : Nat) (p : Params) (k : Fin n) (pl pl' : Platform n), Platform.step p k pl = .next pl' →
    stepWith p pl[k] = .next pl'[k] ∧
    ((∀ i v ms, pl[k].agenda ≠ .writeOut i v :: ms) → ∀ j : Fin n, j ≠ k → pl'[j] = pl[j]) ∧
    ∀ i v ms, pl[k].agenda = .writeOut i v :: ms → ∀ j : Fin n, j ≠ k →
      pl'[j] = { pl[j] with outMem := pl'[j].outMem } ∧
      ∀ x, pl'[j].outMem.read x =
        if hostMayAccessOut pl[j] x = true ∧
          p.locate pl[j].dstBase x = p.locate pl[k].dstBase i then some v
        else pl[j].outMem.read x

/-- 60_exceptions.md R135, 20_memory.md R50 and R52, 44_host_commands.md R96, over the locations of the
buffers: what a launch of one engine, and a host write through one engine, may touch of the others'. A
launch that breaks no rule goes ahead, with its IN in another engine's live result too. That each breach
is refused, and under which name, is the model's choice (log 16, log 18; 93 V4: "if modelled, refuse");
and so is the location of a host write after a reset and before the next START (log 4). -/
def Obligations.AccessesAcrossEnginesFollowOwnership : Prop :=
  ∀ (n : Nat) (p : Params) (k : Fin n) (pl : Platform n) (ms : List Move), pl[k].phase ≠ .run →
    (∀ op, pl[k].agenda = .start op :: ms → launchRefusal p pl[k] op = none →
      let shares := ∃ j : Fin n, j ≠ k ∧
        ((outInUse pl[j] = true ∧ Meets p op.dstBase op.tgtLen pl[j].dstBase pl[j].tgtLen) ∨
          (pl[j].phase = .run ∧ (Meets p op.srcBase op.cmpLen pl[j].dstBase pl[j].tgtLen ∨
            Meets p op.dstBase op.tgtLen pl[j].srcBase pl[j].cmpLen)))
      let disagrees := ∃ j : Fin n, j ≠ k ∧
        ((pl[j].phase = .run ∧
            ¬ Agree p op.srcBase op.cmpLen pl[k].inMem pl[j].srcBase pl[j].cmpLen pl[j].inMem) ∨
          (liveResult pl[j] = true ∧
            ¬ Agree p op.srcBase op.cmpLen pl[k].inMem pl[j].dstBase pl[j].resSize pl[j].outMem))
      (shares → Platform.step p k pl = .refused .launchSharesBuffer) ∧
      (¬ shares → disagrees → Platform.step p k pl = .refused .launchInputDisagrees) ∧
      (¬ shares → ¬ disagrees →
        Platform.step p k pl = .next (pl.set k (launch op { pl[k] with agenda := ms })))) ∧
    ∀ i v, pl[k].agenda = .writeOut i v :: ms →
      let inOut := ∃ j : Fin n, j ≠ k ∧ pl[j].phase = .run ∧
        ∃ x < pl[j].tgtLen, p.locate pl[j].dstBase x = p.locate pl[k].dstBase i
      let inIn := ∃ j : Fin n, j ≠ k ∧ pl[j].phase = .run ∧
        ∃ x < pl[j].cmpLen, p.locate pl[j].srcBase x = p.locate pl[k].dstBase i
      (inOut → Platform.step p k pl = .refused .hostTouchesOutput) ∧
      (¬ inOut → inIn → Platform.step p k pl = .refused .hostWritesInputDuringCall)

/-- 20_memory.md R46, R52 and 60_exceptions.md R135, for engines that run at once, as an invariant of the
whole platform: every step of any engine, and every move of the host, keeps the engines apart in memory
and each of them in the invariant of a single engine. Of `PlatformInv` these are the model's choice: that
`outs` takes in live results (log 16, by R96 b), and `inputs` and `chained` (log 18). So are the refusals
by which launches and host writes keep it (log 12, log 16, log 18), and what a reset move leaves (log 4,
log 15), as in `EveryStepKeepsTheInvariant`. -/
def Obligations.EveryPlatformStepKeepsTheEnginesApart : Prop :=
  ∀ (n : Nat) (p : Params) (k : Fin n) (pl pl' : Platform n), PlatformInv p pl →
    Platform.step p k pl = .next pl' → PlatformInv p pl'
end

