-- ==== Sys2Proof/Laws/Call.lean ====
section
/-! SUPPORT. The small lemmas of `Decode` (45_decode_function.md R107) and of the encoder. -/

namespace Sys2Proof.Machine

@[simp] theorem copyBytes_zero (d : Nat) (out : List Byte) : copyBytes 0 d out = out := rfl

theorem copyBytes_succ (n d : Nat) (out : List Byte) :
    copyBytes (n + 1) d out = copyBytes n d (out ++ (out[out.length - d]?).toList) := rfl

/-- One byte of a copy whose distance reaches the bytes written so far. -/
theorem copyBytes_succ_of_reach {n d : Nat} {out : List Byte} (hd : 1 ≤ d) (hr : d ≤ out.length) :
    copyBytes (n + 1) d out = copyBytes n d (out ++ [out[out.length - d]'(by omega)]) := by
  rw [copyBytes_succ, List.getElem?_eq_getElem (by omega)]
  rfl

/-- A copy of `n` bytes adds `n` bytes. -/
theorem copyBytes_length {n d : Nat} {out : List Byte} (hd : 1 ≤ d) (hr : d ≤ out.length) :
    (copyBytes n d out).length = out.length + n := by
  induction n generalizing out with
  | zero => rfl
  | succ n ih =>
    rw [copyBytes_succ_of_reach hd hr, ih (by simp; omega)]
    simp
    omega

/-- A copy only adds bytes: those written before stay. -/
theorem copyBytes_prefix (n d : Nat) (out : List Byte) : out <+: copyBytes n d out := by
  induction n generalizing out with
  | zero => exact List.prefix_refl _
  | succ n ih => exact (List.prefix_append _ _).trans (ih _)

/-- Copying in two goes is copying once. -/
theorem copyBytes_add (m n d : Nat) (out : List Byte) :
    copyBytes (m + n) d out = copyBytes n d (copyBytes m d out) := by
  induction m generalizing out with
  | zero => rw [Nat.zero_add, copyBytes_zero]
  | succ m ih => rw [Nat.add_right_comm, copyBytes_succ, copyBytes_succ, ih]

theorem flagBit_lt {order : BitOrder} {k : Nat} (h : k < 8) : flagBit order k < 8 := by
  cases order <;> simp only [flagBit] <;> omega

/-- The map between flag numbers and bit positions is its own inverse (30_encoding.md R54). -/
theorem flagBit_flagBit {order : BitOrder} {k : Nat} (h : k < 8) :
    flagBit order (flagBit order k) = k := by
  cases order <;> simp only [flagBit]
  omega

/-- The token of two bytes (30_encoding.md R57). -/
theorem token_pair (b0 b1 : Byte) : RefLayout.token [b0, b1] = 256 * b0.toNat + b1.toNat := by
  simp [RefLayout.token]

/-- The fields of a well-formed reference fit the 16 bits of the token. -/
theorem assemble_lt {lay : RefLayout} {d l : Nat} (h : (Instr.ref d l).wf lay = true) :
    lay.assemble d l < 2 ^ 16 := by
  simp only [Instr.wf, Bool.and_eq_true, decide_eq_true_eq] at h
  obtain ⟨hd, h1, h2⟩ := h
  have hm := lay.matchBits_le
  have hpow : 2 ^ lay.matchBits * 2 ^ (16 - lay.matchBits) = 2 ^ 16 := by
    rw [← pow_add, show lay.matchBits + (16 - lay.matchBits) = 16 by omega]
  have hle : (l - lay.matchMin + 1) * 2 ^ (16 - lay.matchBits) ≤
      2 ^ lay.matchBits * 2 ^ (16 - lay.matchBits) := Nat.mul_le_mul_right _ (by omega)
  rw [hpow, Nat.add_mul, Nat.one_mul] at hle
  unfold RefLayout.assemble
  omega

end Sys2Proof.Machine
end

