-- ==== Sys2Proof/Laws/PerInstr.lean ====
section
/-! SUPPORT. One lemma per constructor of `Instr`: the encoding of an item has the length the sequencer
fetches for it (30_encoding.md R60). -/

namespace Sys2Proof.Laws.EncodedLength

/-- The encoding of an item is as long as what fetching it reads. -/
def Statement (i : Instr) : Prop :=
  ∀ (lay : RefLayout) (order : BitOrder) (refFlag : Bool),
    (encode lay i).length = itemBytes (lay.params order refFlag) i.kind

theorem ctrl (flags : Byte) : Statement (.ctrl flags) := fun _ _ _ => rfl

theorem lit (value : Byte) : Statement (.lit value) := fun _ _ _ => rfl

theorem ref (distance length : Nat) : Statement (.ref distance length) := fun _ _ _ => rfl

end Sys2Proof.Laws.EncodedLength
end

