-- ==== Sys2Proof/Laws/Platform.lean ====
section
/-! SUPPORT. What a step of a platform can do, said once. -/

namespace Sys2Proof.Machine

theorem buffersMeet_iff_meets {p : Params} {h₁ n₁ h₂ n₂ : Nat} :
    buffersMeet p h₁ n₁ h₂ n₂ = true ↔ Meets p h₁ n₁ h₂ n₂ := buffersMeet_iff

theorem Meets.symm {p : Params} {h₁ n₁ h₂ n₂ : Nat} (h : Meets p h₁ n₁ h₂ n₂) : Meets p h₂ n₂ h₁ n₁ := by
  obtain ⟨i, hi, j, hj, he⟩ := h
  exact ⟨j, hj, i, hi, he.symm⟩

theorem Agree.symm {p : Params} {h₁ n₁ h₂ n₂ : Nat} {m₁ m₂ : Memory} (h : Agree p h₁ n₁ m₁ h₂ n₂ m₂) :
    Agree p h₂ n₂ m₂ h₁ n₁ m₁ := fun i hi j hj he => (h j hj i hi he.symm).symm

theorem inBuffer_iff {p : Params} {handle len location : Nat} :
    inBuffer p handle len location = true ↔ ∃ i < len, p.locate handle i = location := by
  simp [inBuffer]

theorem contentsDiffer_iff {p : Params} {h₁ n₁ h₂ n₂ : Nat} {m₁ m₂ : Memory} :
    contentsDiffer p h₁ n₁ m₁ h₂ n₂ m₂ = true ↔ ¬ Agree p h₁ n₁ m₁ h₂ n₂ m₂ := by
  simp [contentsDiffer, Agree]

theorem outInUse_iff {s : State} :
    outInUse s = true ↔ s.phase = .run ∨ (s.phase = .done ∧ s.resSuccess = true) := by
  simp [outInUse, liveResult_iff]

theorem launchShares_iff {p : Params} {op : StartOperands} {s : State} :
    launchShares p op s = true ↔
      (outInUse s = true ∧ Meets p op.dstBase op.tgtLen s.dstBase s.tgtLen) ∨
      (s.phase = .run ∧ (Meets p op.srcBase op.cmpLen s.dstBase s.tgtLen ∨
        Meets p op.dstBase op.tgtLen s.srcBase s.cmpLen)) := by
  simp [launchShares, buffersMeet_iff_meets]

theorem launchDisagrees_iff {p : Params} {op : StartOperands} {s other : State} :
    launchDisagrees p op s other = true ↔
      (other.phase = .run ∧
        ¬ Agree p op.srcBase op.cmpLen s.inMem other.srcBase other.cmpLen other.inMem) ∨
      (liveResult other = true ∧
        ¬ Agree p op.srcBase op.cmpLen s.inMem other.dstBase other.resSize other.outMem) := by
  simp [launchDisagrees, contentsDiffer_iff]

theorem inRunningOut_iff {p : Params} {location : Nat} {s : State} :
    inRunningOut p location s = true ↔
      s.phase = .run ∧ ∃ i < s.tgtLen, p.locate s.dstBase i = location := by
  simp [inRunningOut, inBuffer_iff]

theorem inRunningIn_iff {p : Params} {location : Nat} {s : State} :
    inRunningIn p location s = true ↔
      s.phase = .run ∧ ∃ i < s.cmpLen, p.locate s.srcBase i = location := by
  simp [inRunningIn, inBuffer_iff]

theorem Platform.anyOther_iff {n : Nat} {k : Fin n} {pl : Platform n} {q : State → Bool} :
    pl.anyOther k q = true ↔ ∃ j : Fin n, j ≠ k ∧ q pl[j] = true := by
  simp [Platform.anyOther]

theorem Platform.anyOther_false_iff {n : Nat} {k : Fin n} {pl : Platform n} {q : State → Bool} :
    pl.anyOther k q = false ↔ ∀ j : Fin n, j ≠ k → q pl[j] = false := by
  rw [← Bool.not_eq_true, Platform.anyOther_iff]
  push Not
  exact forall₂_congr fun j _ => by rw [ne_eq, Bool.not_eq_true]

/-- A launch is not refused exactly when no other engine forbids it. -/
theorem Platform.launchRefusal_none_iff {n : Nat} {p : Params} {k : Fin n} {pl : Platform n}
    {op : StartOperands} : pl.launchRefusal p k op = none ↔
      (∀ j : Fin n, j ≠ k → launchShares p op pl[j] = false) ∧
        ∀ j : Fin n, j ≠ k → launchDisagrees p op pl[k] pl[j] = false := by
  rw [← Platform.anyOther_false_iff, ← Platform.anyOther_false_iff, Platform.launchRefusal]
  cases pl.anyOther k (launchShares p op) <;>
    cases pl.anyOther k (launchDisagrees p op pl[k]) <;> simp

/-- A host write is not refused exactly when its location is in no other running engine's buffer. -/
theorem Platform.writeRefusal_none_iff {n : Nat} {p : Params} {k : Fin n} {pl : Platform n}
    {location : Nat} : pl.writeRefusal p k location = none ↔
      (∀ j : Fin n, j ≠ k → inRunningOut p location pl[j] = false) ∧
        ∀ j : Fin n, j ≠ k → inRunningIn p location pl[j] = false := by
  rw [← Platform.anyOther_false_iff, ← Platform.anyOther_false_iff, Platform.writeRefusal]
  cases pl.anyOther k (inRunningOut p location) <;>
    cases pl.anyOther k (inRunningIn p location) <;> simp

/-- Reading after a byte is written at a location. -/
theorem overwriteAt_read (p : Params) (handle location : Nat) (v : Byte) (len : Nat) (m : Memory)
    (i : Nat) : (overwriteAt p handle location v len m).read i =
      if i < len ∧ p.locate handle i = location then some v else m.read i := by
  induction len with
  | zero => simp [overwriteAt]
  | succ n ih =>
    by_cases hn : p.locate handle n = location
    · rw [overwriteAt, if_pos hn]
      by_cases hi : i = n
      · subst hi; simp [hn]
      · rw [Memory.read_write_other _ _ hi, ih]
        exact if_congr (by constructor <;> rintro ⟨h₁, h₂⟩ <;> exact ⟨by omega, h₂⟩) rfl rfl
    · rw [overwriteAt, if_neg hn, ih]
      refine if_congr ⟨fun ⟨h₁, h₂⟩ => ⟨by omega, h₂⟩, fun ⟨h₁, h₂⟩ => ⟨?_, h₂⟩⟩ rfl rfl
      rcases Nat.lt_succ_iff_lt_or_eq.1 h₁ with h | h
      · exact h
      · exact absurd (h ▸ h₂) hn

theorem overwriteAt_wf (p : Params) (handle location : Nat) (v : Byte) (len : Nat) {m : Memory}
    (h : m.wf) : (overwriteAt p handle location v len m).wf := by
  induction len with
  | zero => exact h
  | succ n ih =>
    unfold overwriteAt
    split
    · exact Memory.write_wf ih _ _
    · exact ih

/-- Writing bytes that are all listed lists no new one. -/
theorem overwriteAt_keys (p : Params) (handle location : Nat) (v : Byte) (len : Nat) {m : Memory}
    (h : m.wf) (hk : ∀ i < len, i ∈ m.map Prod.fst) :
    (overwriteAt p handle location v len m).map Prod.fst = m.map Prod.fst := by
  induction len with
  | zero => rfl
  | succ n ih =>
    have ih := ih fun i hi => hk i (by omega)
    unfold overwriteAt
    split
    · rw [Memory.keys_write_listed (overwriteAt_wf p handle location v n h), ih]
      rw [ih]
      exact hk n (by omega)
    · exact ih

/-- Nothing of an engine but the bytes of a live result can change by a host write of a location. -/
theorem afterHostWrite_eq (p : Params) (location : Nat) (v : Byte) (s : State) :
    afterHostWrite p location v s =
      { s with outMem := (afterHostWrite p location v s).outMem } := by
  unfold afterHostWrite
  split <;> rfl

theorem afterHostWrite_read (p : Params) (location : Nat) (v : Byte) (s : State) (i : Nat) :
    (afterHostWrite p location v s).outMem.read i =
      if hostMayAccessOut s i = true ∧ p.locate s.dstBase i = location then some v
      else s.outMem.read i := by
  unfold afterHostWrite hostMayAccessOut
  cases hl : liveResult s <;> simp [overwriteAt_read]

@[simp] theorem afterHostWrite_phase (p : Params) (location : Nat) (v : Byte) (s : State) :
    (afterHostWrite p location v s).phase = s.phase := by rw [afterHostWrite_eq]
@[simp] theorem afterHostWrite_resSuccess (p : Params) (location : Nat) (v : Byte) (s : State) :
    (afterHostWrite p location v s).resSuccess = s.resSuccess := by rw [afterHostWrite_eq]
@[simp] theorem afterHostWrite_resSize (p : Params) (location : Nat) (v : Byte) (s : State) :
    (afterHostWrite p location v s).resSize = s.resSize := by rw [afterHostWrite_eq]
@[simp] theorem afterHostWrite_srcBase (p : Params) (location : Nat) (v : Byte) (s : State) :
    (afterHostWrite p location v s).srcBase = s.srcBase := by rw [afterHostWrite_eq]
@[simp] theorem afterHostWrite_cmpLen (p : Params) (location : Nat) (v : Byte) (s : State) :
    (afterHostWrite p location v s).cmpLen = s.cmpLen := by rw [afterHostWrite_eq]
@[simp] theorem afterHostWrite_tgtLen (p : Params) (location : Nat) (v : Byte) (s : State) :
    (afterHostWrite p location v s).tgtLen = s.tgtLen := by rw [afterHostWrite_eq]
@[simp] theorem afterHostWrite_dstBase (p : Params) (location : Nat) (v : Byte) (s : State) :
    (afterHostWrite p location v s).dstBase = s.dstBase := by rw [afterHostWrite_eq]
@[simp] theorem afterHostWrite_inMem (p : Params) (location : Nat) (v : Byte) (s : State) :
    (afterHostWrite p location v s).inMem = s.inMem := by rw [afterHostWrite_eq]

/-- A host write of a location keeps the invariant of an engine whose live result lies there. -/
theorem afterHostWrite_inv {p : Params} {location : Nat} {v : Byte} {s : State} (h : Inv s) :
    Inv (afterHostWrite p location v s) := by
  unfold afterHostWrite
  split
  · next hl =>
    obtain ⟨hd, hr⟩ := liveResult_iff.1 hl
    refine { h with written := ?_ }
    show (overwriteAt _ _ _ _ _ _).map _ = _
    rw [overwriteAt_keys _ _ _ _ _ (Memory.wf_of_keys h.written), h.written]
    intro i hi
    rw [h.written, List.mem_range]
    rcases h.success hd hr with ⟨-, -, hsize | hsize⟩ <;> omega
  · exact h

/-- A step of a platform that answers a next one: engine `k` moves alone, and the others settle. -/
theorem Platform.step_next_iff {n : Nat} {p : Params} {k : Fin n} {pl pl' : Platform n} :
    Platform.step p k pl = .next pl' ↔
      pl.refusal p k = none ∧ ∃ t, stepWith p pl[k] = .next t ∧ pl' = (pl.settle p k).set k t := by
  unfold Platform.step
  cases pl.refusal p k with
  | some r => simp
  | none => cases hs : stepWith p pl[k] <;> simp [eq_comm]

theorem Platform.step_at {n : Nat} {p : Params} {k : Fin n} {pl pl' : Platform n}
    (h : Platform.step p k pl = .next pl') : stepWith p pl[k] = .next pl'[k] := by
  obtain ⟨-, t, ht, rfl⟩ := Platform.step_next_iff.1 h
  simpa using ht

theorem Platform.step_other {n : Nat} {p : Params} {k j : Fin n} {pl pl' : Platform n}
    (h : Platform.step p k pl = .next pl') (hj : j ≠ k) : pl'[j] = (pl.settle p k)[j] := by
  obtain ⟨-, t, -, rfl⟩ := Platform.step_next_iff.1 h
  exact Vector.getElem_set_ne _ _ fun h => hj (Fin.ext h.symm)

@[simp] theorem Platform.mapEngines_at {n : Nat} (f : State → State) (pl : Platform n) (j : Fin n) :
    (pl.mapEngines f)[j] = f pl[j] := by
  simp [Platform.mapEngines]

theorem Platform.settle_writeOut {n : Nat} {p : Params} {k : Fin n} {pl : Platform n} {i : Nat}
    {v : Byte} {ms : List Move} (h : pl[k].agenda = .writeOut i v :: ms) (j : Fin n) :
    (pl.settle p k)[j] = afterHostWrite p (p.locate pl[k].dstBase i) v pl[j] := by
  unfold Platform.settle
  rw [h]
  exact Platform.mapEngines_at _ pl j

theorem Platform.settle_other {n : Nat} {p : Params} {k : Fin n} {pl : Platform n}
    (h : ∀ i v ms, pl[k].agenda ≠ .writeOut i v :: ms) : pl.settle p k = pl := by
  unfold Platform.settle
  split
  · next h' => exact absurd h' (h _ _ _)
  · rfl

end Sys2Proof.Machine
end

