-- ==== Sys2Proof/Tests/Slice0.lean ====
section
/-! SUPPORT. The model's own tests, each about one step or one small value, with its source in the spec;
and for every obligation with hypotheses a named witness that meets them. -/

namespace Sys2Proof.Tests

open Sys2Proof Sys2Proof.Machine

/-! Helpers. -/

def bytes (l : List Nat) : List Byte := l.map (BitVec.ofNat 8)

/-- A running call over `input` at a given program counter, with the output written so far. -/
def running (input : List Nat) (tgt inPos : Nat) (idx : Fin 9) (ctrl : Byte) (out : List Nat)
    (dist rem : Nat) : State :=
  { State.reset with
    srcBase := 100
    cmpLen := input.length
    tgtLen := tgt
    dstBase := 1000
    phase := .run
    inPos := inPos
    ctrlIdx := idx
    ctrl := ctrl
    outPos := out.length
    copyDist := dist
    copyRem := rem
    inMem := Memory.ofBytes (bytes input)
    outMem := Memory.ofBytes (bytes out) }

/-- The engine before a call, with a stream placed in IN and moves to come. -/
def waiting (input : List Nat) (agenda : List Move) : State :=
  { State.reset with inMem := Memory.ofBytes (bytes input), agenda := agenda }

/-- A finished call holding a success of the given bytes. -/
def succeeded (input out : List Nat) (agenda : List Move) : State :=
  { finishSuccess out.length (running input out.length input.length 2 0 out 0 0) with agenda := agenda }

/-- A finished call holding a failure. -/
def failed (agenda : List Move) : State :=
  { raise .truncatedInput (running [2] 6 1 0 2 [] 0 0) with agenda := agenda }

/-- The next state of an outcome, if it is one. -/
def nextOf (o : Host.Outcome State Fault Refusal) : Option State :=
  match o with
  | .next s => some s
  | .fault _ => none
  | .refused _ => none

/-- The refusal of an outcome, if it is one. -/
def refusalOf (o : Host.Outcome State Fault Refusal) : Option Refusal :=
  match o with
  | .next _ => none
  | .fault _ => none
  | .refused r => some r

/-- The (IN_POS, OUT_POS, CTRL_IDX) notation of 95_test_vectors.md. -/
def cursors (s : State) : Nat × Nat × Nat := (s.inPos, s.outPos, s.ctrlIdx.val)

/-- The result registers: RES_SUCCESS, RES_SIZE, RES_DATA, ERR. -/
def results (s : State) : Byte × Nat × Nat × BitVec 3 :=
  (successByte s, s.resSize, s.resData, errCode s)

def call (src cmp tgt dst : Nat) : StartOperands := ⟨src, cmp, tgt, dst⟩

/-! WellFormed smoke: each check refuses an ill-formed term (30_encoding.md R57, R58, R68). -/

theorem test_wf_refuses_wide_distance : (Instr.ref 1024 3).wf conventionalLayout = false := by decide
theorem test_wf_refuses_short_length : (Instr.ref 1 2).wf conventionalLayout = false := by decide
theorem test_wf_refuses_long_length : (Instr.ref 1 67).wf conventionalLayout = false := by decide
theorem test_wf_takes_the_extremes : (Instr.ref 1023 66).wf conventionalLayout = true ∧
    (Instr.ref 0 3).wf conventionalLayout = true := by decide
theorem test_legal_refuses_ctrl_among_tokens : tokensLegal conventionalLayout 0 [.ctrl 0] = false := by
  decide
theorem test_legal_refuses_reach_before_start :
    tokensLegal conventionalLayout 0 [.lit 1, .ref 2 3] = false := by decide
theorem test_legal_refuses_zero_distance :
    tokensLegal conventionalLayout 0 [.lit 1, .ref 0 3] = false := by decide
theorem test_legal_refuses_zero_length :
    tokensLegal ⟨6, 0, by decide, by decide⟩ 0 [.lit 1, .ref 1 0] = false := by decide
theorem test_legal_refuses_ill_formed_ref :
    tokensLegal conventionalLayout 0 [.lit 1, .ref 1 2] = false := by decide

/-! Decoding, the words written out from the formats. -/

/-- `0x1D = 0b00011101`, format C (95 T2). -/
theorem test_decode_ctrl : decodeTableWord 8 0b00011101 = some (.ctrl 0x1D) := by decide

/-- Format L: the byte is the data byte (R55). -/
theorem test_decode_lit : (decode params .lit (bytes [0x61, 0x08])).toOption =
    some (.lit 0x61, bytes [0x08]) := by decide

/-- `lllllldddddddddd = 000010 0000000001`: LENF 2, OFFF 1 (R57, 95 T14 row `08 01`). -/
theorem test_decode_ref : decodeTableWord 16 0b0000100000000001 = some (.ref 1 5) := by decide

/-- 95 T14: `14 08`, `03 FF`, `04 00`, `FC 01`. -/
theorem test_decode_ref_rows :
    params.refDecode (bytes [0x14, 0x08]) = (8, 8) ∧ params.refDecode (bytes [0x03, 0xFF]) = (1023, 3) ∧
    params.refDecode (bytes [0x04, 0x00]) = (0, 4) ∧ params.refDecode (bytes [0xFC, 0x01]) = (1, 66) := by
  decide

/-- R68: `REF d=1 l=5` is `08 01`. -/
theorem test_encode_ref : encode conventionalLayout (.ref 1 5) = bytes [0x08, 0x01] := by decide

theorem test_decode_short : (decode params .ref (bytes [0x08])).toOption = none ∧
    (decode params .ctrl []).toOption = none ∧ (decode params .lit []).toOption = none ∧
    decodeTableWord 24 0 = none := by decide

/-- R66 and 95 T3, T4: the control byte of S5 at the defaults, with `REF_FLAG = 0`, and with `MSB`. -/
theorem test_ctrl_byte : ctrlByteOf params [false, true] = 0x02 ∧
    ctrlByteOf (conventionalLayout.params .lsb false) [false, true] = 0xFD ∧
    ctrlByteOf (conventionalLayout.params .msb true) [false, true] = 0x40 := by decide

/-- 95 T1, `0x1D` under both bit orders. -/
theorem test_flag_rows :
    (List.range 8).map (flag params 0x1D) = [true, false, true, true, true, false, false, false] ∧
    (List.range 8).map (flag (conventionalLayout.params .msb true) 0x1D) =
      [false, false, false, true, true, true, false, true] := by decide

/-! One micro-step each. -/

/-- R72's example: from (0, 0, 8) with IN[0] = 0x02. -/
theorem test_ctrl_step : (nextOf (step (running [0x02, 0x61, 8, 1] 6 0 8 0 [] 0 0))).map
    (fun t => (t.ctrl, cursors t)) = some (0x02, 1, 0, 0) := by decide

/-- R79's example: LIT 0x61 at OUT[0]. -/
theorem test_lit_step : (nextOf (step (running [0x02, 0x61, 8, 1] 6 1 0 2 [] 0 0))).map
    (fun t => (t.outMem.read 0, cursors t)) = some (some 0x61, 2, 1, 1) := by decide

/-- R81's example: `08 01` at OUT_POS = 1 arms the copy with distance 1 and 5 bytes. -/
theorem test_ref_step : (nextOf (step (running [0x02, 0x61, 8, 1] 6 2 1 2 [0x61] 0 0))).map
    (fun t => (t.copyDist, t.copyRem, cursors t)) = some (1, 5, 4, 1, 2) := by decide

/-- R86's example: the same at `TGT_LEN = 4` copies 3. -/
theorem test_ref_clipped : (nextOf (step (running [0x02, 0x61, 8, 1] 4 2 1 2 [0x61] 0 0))).map
    (fun t => t.copyRem) = some 3 := by decide

/-- R88's example, and 95 T29 step 3: the byte read was written by the same token. -/
theorem test_copy_step :
    (nextOf (step (running [2, 0x61, 8, 1] 6 4 2 2 [0x61] 1 5))).map
      (fun t => (t.outMem.read 1, t.outPos, t.copyRem)) = some (some 0x61, 2, 4) ∧
    (nextOf (step (running [4, 0x61, 0x62, 8, 2] 7 5 3 4 [0x61, 0x62, 0x61, 0x62] 2 3))).map
      (fun t => (t.outMem.read 4, t.copyRem)) = some (some 0x61, 2) := by decide

/-- 95 T12: exhausted under a reference flag is TruncatedInput, not OversizedToken. -/
theorem test_truncated_step : (nextOf (step (running [2, 0x61] 6 2 1 2 [0x61] 0 0))).map
    (fun t => (results t, cursors t)) = some ((0, 0, 0, 1), 2, 1, 1) := by decide

/-- 95 T15, T17, T20: OversizedToken, InvalidToken before CorruptReference, CorruptReference. -/
theorem test_ref_failures :
    (nextOf (step (running [2, 0x61, 8] 6 2 1 2 [0x61] 0 0))).map results = some (0, 0, 0, 3) ∧
    (nextOf (step (running [1, 0, 0] 3 1 0 1 [] 0 0))).map results = some (0, 0, 0, 4) ∧
    (nextOf (step (running [8, 0x61, 0x62, 0x63, 0x0C, 4] 10 4 3 8 [0x61, 0x62, 0x63] 0 0))).map
      results = some (0, 0, 0, 2) := by decide

/-- 95 T28: distance 1023 at `OUT_POS` 1022 and 1023. -/
theorem test_largest_distance :
    refFailure params 1023 3 { running [0, 3, 0xFF] 2000 1 0 1 [] 0 0 with outPos := 1022 } =
      some .corruptReference ∧
    refFailure params 1023 3 { running [0, 3, 0xFF] 2000 1 0 1 [] 0 0 with outPos := 1023 } = none := by
  decide

/-- 95 T10 and T21: the two ways a call succeeds. -/
theorem test_finish_steps :
    (nextOf (step (running [] 6 0 8 0 [] 0 0))).map results = some (1, 0, 1000, 0) ∧
    (nextOf (step (running [0xFF] 0 0 8 0 [] 0 0))).map (fun t => (results t, cursors t)) =
      some ((1, 0, 1000, 0), 0, 0, 8) := by decide

/-- 95 T33, the START rows. -/
theorem test_start_step : (nextOf (step (waiting [2, 0x61, 8, 1] [.start (call 100 4 6 1000)]))).map
    (fun t => (t.phase, cursors t, t.cmpLen, t.tgtLen)) = some (.run, (0, 0, 8), 4, 6) := by decide

theorem test_start_ignored_in_run :
    nextOf (step { running [2, 0x61, 8, 1] 6 1 0 2 [] 0 0 with agenda := [.start (call 7 1 1 8)] }) =
      some (running [2, 0x61, 8, 1] 6 1 0 2 [] 0 0) := by decide

/-- 95 T33, the RELEASE rows. -/
theorem test_release_step :
    (nextOf (step (succeeded [0, 0x61] [0x61] [.release]))).map (fun t => (t.phase, results t)) =
      some (.idle, 0, 0, 0, 0) ∧
    (nextOf (step (failed [.release]))) = some (failed []) := by decide

/-- R96: a stream that is not there, and buffers that meet, are refused. -/
theorem test_launch_refused :
    refusalOf (step (waiting [2] [.start (call 100 2 6 1000)])) = some .launchInputAbsent ∧
    refusalOf (step (waiting [2, 3] [.start (call 100 2 6 101)])) = some .launchBuffersOverlap := by
  decide

theorem test_reset_step :
    (nextOf (step { running [2, 0x61] 6 1 0 2 [] 0 0 with agenda := [.reset] })) =
      some (waiting [2, 0x61] []) := by decide

/-- The host's interface of the fixed names: a control byte and a reference as the first item. -/
theorem test_fetch_word :
    (nextOf (step (State.reset.withFetchWord 8 0x02))).map (fun t => (t.ctrl, t.inPos)) =
      some (0x02, 1) ∧
    (nextOf (step (State.reset.withFetchWord 16 0x0801))).map results = some (0, 0, 0, 2) := by decide

/-- `Decode` (R107) on the programs P1, P2, P4 and on 95 T26. -/
theorem test_decode_calls :
    decodeCall params (bytes [2, 0x61, 8, 1]) 4 6 = .success (List.replicate 6 0x61) ∧
    decodeCall params (bytes [8, 0x61, 0x62, 0x63, 0x0C, 3, 0x64]) 7 10 =
      .success (bytes [0x61, 0x62, 0x63, 0x61, 0x62, 0x63, 0x61, 0x62, 0x63, 0x64]) ∧
    decodeCall params (bytes [8, 0x61, 0x62, 0x63, 0x0C, 4, 0x64]) 7 10 = .failure .corruptReference ∧
    decodeCall params (bytes [2, 0x61, 8, 1]) 4 7 = .failure .truncatedInput := by decide

/-! Witnesses: for every obligation with hypotheses, values that meet all of them. -/

theorem witness_ResetGivesTheSpecifiedValues :
    ({ running [2, 0x61] 6 1 0 2 [] 0 0 with agenda := [Move.reset] } : State).agenda =
      .reset :: [] := rfl

theorem witness_StartWritesEveryRegister :
    let s := waiting [2, 0x61, 8, 1] [.start (call 100 4 6 1000)]
    s.agenda = .start (call 100 4 6 1000) :: [] ∧ s.phase ≠ .run ∧
    (∀ i < 4, (s.inMem.read i).isSome = true) ∧
    (∀ i < 4, ∀ j < 6, params.locate 100 i ≠ params.locate 1000 j) := by decide

theorem witness_StartWritesEveryRegister_from_done :
    let s := succeeded [0, 0x61] [0x61] [.start (call 100 2 1 1000)]
    s.agenda = .start (call 100 2 1 1000) :: [] ∧ s.phase ≠ .run ∧
    (∀ i < 2, (s.inMem.read i).isSome = true) ∧
    (∀ i < 2, ∀ j < 1, params.locate 100 i ≠ params.locate 1000 j) := by decide

theorem witness_BrokenLaunchIsRefused :
    (∃ i < 2, (waiting [2] [.start (call 100 2 6 1000)]).inMem.read i = none) ∧
    ((∀ i < 2, ((waiting [2, 3] [.start (call 100 2 6 101)]).inMem.read i).isSome = true) ∧
      ∃ i < 2, ∃ j < 6, params.locate 100 i = params.locate 101 j) :=
  ⟨⟨1, by decide, by decide⟩, by decide, 1, by decide, 0, by decide, by decide⟩

theorem witness_HostCommandsAreIgnoredDuringACall :
    let s := { running [2, 0x61] 6 1 0 2 [] 0 0 with agenda := [.start (call 7 1 1 8)] }
    let s' := { running [2, 0x61] 6 1 0 2 [] 0 0 with agenda := [.release] }
    (s.phase = .run ∧ s.agenda = .start (call 7 1 1 8) :: []) ∧
    (s'.phase = .run ∧ s'.agenda = .release :: []) ∧ State.reset.phase ≠ .run := by decide

theorem witness_ReleaseDropsALiveResult :
    let s := succeeded [0, 0x61] [0x61] [.release]
    s.agenda = .release :: [] ∧ s.phase = .done ∧ successByte s = 0x01 := by decide

theorem witness_ReleaseElsewhereIsANoOp :
    ((failed [.release]).agenda = .release :: [] ∧
      ¬ ((failed [.release]).phase = .done ∧ successByte (failed [.release]) = 0x01)) ∧
    ((waiting [] [.release]).agenda = .release :: [] ∧
      ¬ ((waiting [] [.release]).phase = .done ∧ successByte (waiting [] [.release]) = 0x01)) := by
  decide

theorem witness_HostAccessToBuffersFollowsOwnership :
    ({ running [2] 6 0 8 0 [] 0 0 with agenda := [.loadIn [1]] }).phase = .run ∧
    ({ running [2] 6 0 8 0 [] 0 0 with agenda := [.writeOut 0 1] }).phase = .run ∧
    ((succeeded [0, 0x61] [0x61] [.writeOut 0 7]).phase = .done ∧
      (succeeded [0, 0x61] [0x61] [.writeOut 0 7]).resSuccess = true ∧
      0 < (succeeded [0, 0x61] [0x61] [.writeOut 0 7]).resSize) ∧
    ((failed [.writeOut 0 7]).phase = .done ∧ (failed [.writeOut 0 7]).resSuccess = false) := by
  decide

/-- The five clauses: IDLE to engine, engine to result, engine to free by failure, result to free by
RELEASE, and a free owner that stays. -/
theorem witness_OwnershipOfOutChangesOnlyByRule :
    (nextOf (step (waiting [2] [.start (call 100 1 6 1000)]))).map outOwner = some .engine ∧
    (nextOf (step (running [] 6 0 8 0 [] 0 0))).map outOwner = some .hostResult ∧
    (nextOf (step (running [2] 6 1 0 2 [] 0 0))).map outOwner = some .hostFree ∧
    (nextOf (step (succeeded [0, 0x61] [0x61] [.release]))).map outOwner = some .hostFree ∧
    (nextOf (step (failed [.release]))).map outOwner = some .hostFree := by decide

theorem witness_DispatchTakesTheFirstTestThatHolds :
    dispatch params State.reset = .none ∧
    dispatch params (running [2, 0x61, 8, 1] 6 4 2 2 [0x61] 1 5) = .copy ∧
    dispatch params (running [] 6 0 8 0 [] 0 0) = .finish 0 ∧
    dispatch params (running [0, 0x61] 1 2 1 0 [0x61] 0 0) = .finish 1 ∧
    dispatch params (running [2] 6 1 0 2 [] 0 0) = .truncated ∧
    dispatch params (running [2, 0x61] 6 0 8 0 [] 0 0) = .item .ctrl ∧
    dispatch params (running [2, 0x61] 6 1 0 2 [] 0 0) = .item .lit ∧
    dispatch params (running [2, 0x61, 8] 6 2 1 2 [0x61] 0 0) = .item .ref := by decide

theorem witness_ZeroLengthInputFinishesWithSizeZero :
    let s := running [] 6 0 8 0 [] 0 0
    s.phase = .run ∧ s.copyRem = 0 ∧ s.cmpLen = 0 := by decide

theorem witness_TargetReachedFinishesWithTheTarget :
    let s := running [0, 0x61, 0x62] 1 2 1 0 [0x61] 0 0
    s.phase = .run ∧ s.copyRem = 0 ∧ 0 < s.cmpLen ∧ s.outPos = s.tgtLen := by decide

theorem witness_ExhaustedInputRaisesTruncatedInput :
    (let s := running [2, 0x61] 6 2 1 2 [0x61] 0 0
     s.phase = .run ∧ s.copyRem = 0 ∧ 0 < s.cmpLen ∧ s.outPos < s.tgtLen ∧ s.inPos = s.cmpLen) ∧
    (let s := running [0, 1, 2, 3, 4, 5, 6, 7, 8] 9 9 8 0 [1, 2, 3, 4, 5, 6, 7, 8] 0 0
     s.phase = .run ∧ s.copyRem = 0 ∧ 0 < s.cmpLen ∧ s.outPos < s.tgtLen ∧ s.inPos = s.cmpLen) := by
  decide

theorem witness_CtrlLatchesTheControlByte :
    let s := running [0x1D, 1] 4 0 8 0 [] 0 0
    s.phase = .run ∧ s.copyRem = 0 ∧ 0 < s.cmpLen ∧ s.outPos < s.tgtLen ∧ s.inPos < s.cmpLen ∧
      s.ctrlIdx = 8 ∧ s.inMem.read s.inPos = some 0x1D := by decide

/-- Also `EngineCopiesALiteralByte`, at the defaults; the last token of a block. -/
theorem witness_LitWritesOneByteAtTheCursor :
    let s := running [0, 1, 2, 3, 4, 5, 6, 7, 8] 8 8 7 0 [1, 2, 3, 4, 5, 6, 7] 0 0
    s.phase = .run ∧ s.copyRem = 0 ∧ 0 < s.cmpLen ∧ s.outPos < s.tgtLen ∧ s.inPos < s.cmpLen ∧
      s.ctrlIdx.val < 8 ∧ flag params s.ctrl s.ctrlIdx.val ≠ params.refFlag ∧
      s.inMem.read s.inPos = some 8 := by decide

theorem witness_EngineCopiesALiteralByte :
    let p := conventionalLayout.params .msb false
    let s := running [0xFF, 1] 1 1 0 0xFF [] 0 0
    s.phase = .run ∧ s.copyRem = 0 ∧ 0 < s.cmpLen ∧ s.outPos < s.tgtLen ∧ s.inPos < s.cmpLen ∧
      s.ctrlIdx.val < 8 ∧ flag p s.ctrl s.ctrlIdx.val ≠ p.refFlag ∧ s.inMem.read s.inPos = some 1 := by
  decide

/-- `distance = OUT_POS`, the bytes the last of the input (R87). -/
theorem witness_RefArmsTheCopySequencer :
    let s := running [8, 0x61, 0x62, 0x63, 0, 3] 6 4 3 8 [0x61, 0x62, 0x63] 0 0
    s.phase = .run ∧ s.copyRem = 0 ∧ 0 < s.cmpLen ∧ s.outPos < s.tgtLen ∧ s.inPos < s.cmpLen ∧
      s.ctrlIdx.val < 8 ∧ flag params s.ctrl s.ctrlIdx.val = params.refFlag ∧
      params.refBytes ≤ s.cmpLen - s.inPos ∧ 1 ≤ 3 ∧ 1 ≤ 3 ∧ 3 ≤ s.outPos := by decide

/-- The four clauses, each at the edge: one byte left; a zero distance at `OUT_POS = 0`; distance 4 at
`OUT_POS = 3`; distance 3 there. -/
theorem witness_RefHeaderStepFollowsItsPseudocode :
    (let s := running [2, 0x61, 8] 6 2 1 2 [0x61] 0 0
     selected params .ref s = true ∧ s.cmpLen - s.inPos < params.refBytes) ∧
    (let s := running [1, 0, 0] 3 1 0 1 [] 0 0
     selected params .ref s = true ∧ params.refBytes ≤ s.cmpLen - s.inPos ∧
      (∀ j < 2, s.inMem.read (s.inPos + j) = (bytes [0, 0])[j]?) ∧
      params.refDecode (bytes [0, 0]) = (0, 3)) ∧
    (let s := running [8, 0x61, 0x62, 0x63, 0x0C, 4] 10 4 3 8 [0x61, 0x62, 0x63] 0 0
     selected params .ref s = true ∧ params.refBytes ≤ s.cmpLen - s.inPos ∧
      (∀ j < 2, s.inMem.read (s.inPos + j) = (bytes [0x0C, 4])[j]?) ∧
      params.refDecode (bytes [0x0C, 4]) = (4, 6) ∧ s.outPos < 4) ∧
    (let s := running [8, 0x61, 0x62, 0x63, 0, 3] 6 4 3 8 [0x61, 0x62, 0x63] 0 0
     selected params .ref s = true ∧ params.refBytes ≤ s.cmpLen - s.inPos ∧
      (∀ j < 2, s.inMem.read (s.inPos + j) = (bytes [0, 3])[j]?) ∧
      params.refDecode (bytes [0, 3]) = (3, 3) ∧ 3 ≤ s.outPos) := by decide

/-- `selected` is the conjunction of the seven hypotheses of `RefHeaderStepFollowsItsPseudocode` and
`RejectedRefRaisesTheFirstFailure`, in the witnesses above and below. -/
theorem selected_gives_the_hypotheses {p : Params} {s : State} (h : selected p .ref s = true) :
    s.phase = .run ∧ s.copyRem = 0 ∧ 0 < s.cmpLen ∧ s.outPos < s.tgtLen ∧ s.inPos < s.cmpLen ∧
      s.ctrlIdx.val < 8 ∧ flag p s.ctrl s.ctrlIdx.val = p.refFlag := by
  obtain ⟨hw, hi, hf⟩ := selected_ref_iff.1 h
  obtain ⟨h1, h2, h3, h4, h5⟩ := itemWanted_iff.1 hw
  exact ⟨h1, h2, h3, h4, h5, hi, by simpa [nextIsRef] using hf⟩

theorem witness_RejectedRefRaisesTheFirstFailure :
    (let s := running [1, 0x41] 1 1 0 1 [] 0 0
     selected params .ref s = true ∧ s.cmpLen - s.inPos < params.refBytes) ∧
    (let s := running [2, 0x61, 8, 0] 6 2 1 2 [0x61] 0 0
     selected params .ref s = true ∧ params.refBytes ≤ s.cmpLen - s.inPos ∧ (5 = 0 ∨ 0 = 0)) ∧
    (let s := running [1, 0, 1] 3 1 0 1 [] 0 0
     selected params .ref s = true ∧ params.refBytes ≤ s.cmpLen - s.inPos ∧ 1 ≤ 3 ∧ s.outPos < 1) := by
  decide

theorem witness_CutTokenRaisesOversizedUnread :
    let s := running [2, 0x61, 8] 6 2 1 2 [0x61] 0 0
    selected params .ref s = true ∧ s.cmpLen - s.inPos < params.refBytes := by decide

theorem witness_CopyMovesOneByte :
    let s := running [2, 0x61, 8, 1] 6 4 2 2 [0x61, 0x61, 0x61, 0x61, 0x61] 1 1
    s.phase = .run ∧ 0 < s.copyRem ∧ 1 ≤ s.copyDist ∧ s.copyDist ≤ s.outPos ∧ s.outPos < s.tgtLen ∧
      s.outMem.read (s.outPos - s.copyDist) = some 0x61 := by decide

/-- A state in the middle of an overlapping copy that meets the invariant. -/
theorem inv_mid_copy : Inv (running [4, 0x61, 0x62, 8, 2] 7 5 3 4 [0x61, 0x62] 2 5) := by
  constructor <;> decide

/-- Also `ARunningEngineAlwaysMoves`, `OutputIsWrittenInAscendingOrder`. -/
theorem witness_CopyRepeatsTheLastBytesPeriodically :
    let s := running [4, 0x61, 0x62, 8, 2] 7 5 3 4 [0x61, 0x62] 2 5
    Inv s ∧ s.phase = .run ∧ 0 < s.copyRem := ⟨inv_mid_copy, rfl, by decide⟩

theorem witness_ARunningEngineAlwaysMoves :
    let s := running [4, 0x61, 0x62, 8, 2] 7 5 3 4 [0x61, 0x62] 2 5
    Inv s ∧ s.phase = .run := ⟨inv_mid_copy, rfl⟩

theorem witness_OutputIsWrittenInAscendingOrder :
    let s := running [4, 0x61, 0x62, 8, 2] 7 5 3 4 [0x61, 0x62] 2 5
    Inv s ∧ ∃ t, engineTurn params s = .next t := ⟨inv_mid_copy, _, rfl⟩

theorem witness_FlagPicksTheBitOfTheOrder :
    params.ctrlFirst = .lsb ∧ (conventionalLayout.params .msb true).ctrlFirst = .msb := by decide

theorem witness_ControlByteCarriesItsFlags : (7 : Nat) < 8 := by decide

theorem witness_DecodeOfEncodeIsTheItem :
    (Instr.ref 1023 66).wf conventionalLayout = true ∧
    (Instr.ref 32767 5).wf ⟨1, 4, by decide, by decide⟩ = true := by decide

theorem witness_EncodeOfDecodeIsTheBytes :
    decode (conventionalLayout.params .lsb true) .ref (bytes [0xFF, 0xFF, 7]) =
      .ok (.ref 1023 66, bytes [7]) := rfl

theorem witness_StepRunsTheDecodedItem :
    let s := running [2, 0x61, 8, 1] 6 2 1 2 [0x61] 0 0
    let s' := { s with agenda := [.engine] }
    selected params .ref s = true ∧ inBytes s s.inPos 2 = some (bytes [8, 1]) ∧
    (decode params .ref (bytes [8, 1])).toOption = some (.ref 1 5, []) ∧ s.agenda = [] ∧
    selected params .ref s' = true ∧ s'.agenda = .engine :: [] := by decide

/-- At the largest one-byte token, with three bytes to a reference. -/
theorem witness_EngineTurnRunsTheDecodedItem :
    let p : Params := { params with refBytes := 3, refBytes_pos := by decide }
    let s := running [2, 0x61, 8, 1, 0] 6 2 1 2 [0x61] 0 0
    selected p .ref s = true ∧ inBytes s s.inPos (itemBytes p .ref) = some (bytes [8, 1, 0]) ∧
    ((decode p .ref (bytes [8, 1, 0])).toOption.map Prod.snd) = some [] := by decide

theorem witness_ProgramCounterMovesByTheTable :
    BeginsCall params (call 100 1 6 1000) (waiting [2] [])
      (launch (call 100 1 6 1000) (waiting [2] [])) ∧
    ∃ t, engineTurn params (running [2, 0x61, 8, 1] 6 2 1 2 [0x61] 0 0) = .next t :=
  ⟨⟨by decide, rfl⟩, _, rfl⟩

theorem witness_EngineNeverWritesInputOrOperands :
    ∃ t, engineTurn params (running [2, 0x61, 8, 1] 6 1 0 2 [] 0 0) = .next t := ⟨_, rfl⟩

theorem inv_at_target : Inv (running [0, 0x61, 0x62] 1 2 1 0 [0x61] 0 0) := by
  constructor <;> decide

theorem inv_zero_length : Inv (running [] 6 0 8 0 [] 0 0) := by
  constructor <;> decide

/-- Both successes: the target reached, and a zero-length input. -/
theorem witness_SuccessReportsTheWrittenBytes :
    (let s := running [0, 0x61, 0x62] 1 2 1 0 [0x61] 0 0
     Inv s ∧ s.phase = .run ∧ ∃ t, engineTurn params s = .next t ∧ t.phase = .done ∧
      t.resSuccess = true) ∧
    (let s := running [] 6 0 8 0 [] 0 0
     Inv s ∧ s.phase = .run ∧ ∃ t, engineTurn params s = .next t ∧ t.phase = .done ∧
      t.resSuccess = true) :=
  ⟨⟨inv_at_target, rfl, _, rfl, rfl, rfl⟩, inv_zero_length, rfl, _, rfl, rfl, rfl⟩

theorem witness_FailureIsPreciseAndExposesNothing :
    let s := running [2, 0x61, 8] 6 2 1 2 [0x61] 0 0
    s.phase = .run ∧ ∃ t, engineTurn params s = .next t ∧ t.phase = .done ∧ t.resSuccess = false :=
  ⟨rfl, _, rfl, rfl, rfl⟩

theorem witness_AFinishedCallIsFinal : (succeeded [0, 0x61] [0x61] []).phase = .done := rfl

/-- A step of the engine, and one of the host, from states of the invariant. -/
theorem witness_EveryStepKeepsTheInvariant :
    (∃ t, stepWith params (running [4, 0x61, 0x62, 8, 2] 7 5 3 4 [0x61, 0x62] 2 5) = .next t) ∧
    (Inv (waiting [2] [.start (call 100 1 6 1000)]) ∧
      ∃ t, stepWith params (waiting [2] [.start (call 100 1 6 1000)]) = .next t) :=
  ⟨⟨_, rfl⟩, by constructor <;> decide, _, rfl⟩

theorem witness_EveryStepKeepsMemoriesCanonical :
    MemoriesWf (running [2, 0x61, 8, 1] 6 1 0 2 [] 0 0) ∧
    ∃ t, stepWith params (running [2, 0x61, 8, 1] 6 1 0 2 [] 0 0) = .next t :=
  ⟨⟨by decide, by decide⟩, _, rfl⟩

/-- With `LEN_W = 3` and `PTR_W = 10`, the lengths at their largest value 7. -/
theorem witness_EveryStepKeepsRegistersInRange :
    let s := waiting [2, 1, 1, 1, 1, 1, 1] [.start (call 100 7 7 1000)]
    Inv s ∧ InRange ⟨3, 10, by decide, by decide⟩ s ∧ ∃ t, stepWith params s = .next t := by
  refine ⟨by constructor <;> decide, ⟨fun r => by cases r <;> decide, fun op h => ?_⟩, _, rfl⟩
  have hop : op = call 100 7 7 1000 := by simpa [waiting] using h
  subst hop
  exact ⟨by decide, by decide, by decide, by decide⟩

/-- The start of a call over program P1, used by the witnesses about whole calls. -/
theorem begins_p1 : BeginsCall params (call 100 4 6 1000) (waiting [2, 0x61, 8, 1] [])
    (launch (call 100 4 6 1000) (waiting [2, 0x61, 8, 1] [])) := ⟨by decide, rfl⟩

theorem witness_TokensAreClassifiedByTheirControlByte :
    ∃ t u, BeginsCall params (call 100 4 6 1000) (waiting [2, 0x61, 8, 1] []) t ∧
      engineRun params 3 t = .next u ∧ u.phase = .run := ⟨_, _, begins_p1, rfl, rfl⟩

/-- Also `EveryCallIsSafe`. -/
theorem witness_EveryCallEndsWithinTheBound :
    ∃ t, BeginsCall params (call 100 4 6 1000) (waiting [2, 0x61, 8, 1] []) t := ⟨_, begins_p1⟩

theorem witness_EveryCallIsSafe :
    ∃ t, BeginsCall params (call 100 4 6 1000) (waiting [2, 0x61, 8, 1] []) t := ⟨_, begins_p1⟩

theorem witness_TheEngineComputesDecode :
    (∃ t, BeginsCall params (call 100 4 6 1000) (waiting [2, 0x61, 8, 1] []) t) ∧
    InputIs (waiting [2, 0x61, 8, 1] []) (call 100 4 6 1000) (bytes [2, 0x61, 8, 1]) :=
  ⟨⟨_, begins_p1⟩, by decide, by decide⟩

/-- Two engines with different handles, one of them with a longer IN and an older result. -/
theorem witness_CallsAreStateless :
    ∃ t₁ t₂, BeginsCall params (call 100 4 6 1000) (waiting [2, 0x61, 8, 1] []) t₁ ∧
      BeginsCall params (call 200 4 6 3000) (succeeded [2, 0x61, 8, 1, 9] [7] []) t₂ ∧
      (∀ i < 4, (waiting [2, 0x61, 8, 1] []).inMem.read i =
        (succeeded [2, 0x61, 8, 1, 9] [7] []).inMem.read i) ∧
      ∃ u, engineRun params 2 t₁ = .next u :=
  ⟨_, _, begins_p1, ⟨by decide, rfl⟩, by decide, _, rfl⟩

theorem witness_OutputIsTheExpansionOfTheItems :
    ∃ t u, BeginsCall params (call 100 2 1 1000) (waiting [0, 0x61] []) t ∧
      engineRun params 3 t = .next u ∧ u.phase = .done ∧ u.resSuccess = true :=
  ⟨_, _, ⟨by decide, rfl⟩, rfl, rfl, rfl⟩

theorem witness_DecodeSuccessHasTheTargetLength :
    4 ≤ (bytes [2, 0x61, 8, 1]).length ∧
    decodeCall params (bytes [2, 0x61, 8, 1]) 4 6 = .success (List.replicate 6 0x61) := by decide

theorem witness_TruncatedStreamFails :
    decodeRun params (bytes [2, 0x61, 8, 1]) 4 6 = ⟨.success (List.replicate 6 0x61), 4⟩ ∧ 1 ≤ 3 ∧
      3 < 4 := by decide

/-- 95 P5: two input bytes never read; cut at exactly the consumed length. -/
theorem witness_UnconsumedInputDoesNotMatter :
    decodeRun params (bytes [2, 0x61, 0xFC, 1, 0xFF, 0xFF]) 6 10 =
      ⟨.success (List.replicate 10 0x61), 4⟩ ∧ 4 ≤ 4 ∧ 4 ≤ (bytes [2, 0x61, 0xFC, 1]).length ∧
    (∀ i < 4, (bytes [2, 0x61, 0xFC, 1])[i]? = (bytes [2, 0x61, 0xFC, 1, 0xFF, 0xFF])[i]?) := by decide

theorem witness_SmallerTargetYieldsAPrefix :
    decodeCall params (bytes [2, 0x61, 8, 1]) 4 6 = .success (List.replicate 6 0x61) ∧ 4 ≤ 6 := by
  decide

theorem witness_EightLiteralsComeThroughVerbatim :
    (∀ k < 8, flag params 0x00 k ≠ params.refFlag) ∧
    (∀ k < 8, flag (conventionalLayout.params .msb false) 0xFF k ≠ false) ∧
    (bytes [1, 2, 3, 4, 5, 6, 7, 8]).length = 8 := by decide

theorem witness_OverlappingReferenceRepeatsTheByte :
    flag params 0x02 0 ≠ params.refFlag ∧ flag params 0x02 1 = params.refFlag ∧
    (bytes [8, 1]).length = params.refBytes ∧ params.refDecode (bytes [8, 1]) = (1, 5) := by decide

/-- The tokens of program P2. -/
theorem witness_EncodedTokensDecodeToTheirExpansion :
    tokensLegal conventionalLayout 0 [.lit 0x61, .lit 0x62, .lit 0x63, .ref 3 6, .lit 0x64] = true := by
  decide

/-! Platforms of two engines. Engine 0 runs (IN at 100, OUT at 1000 to 1005) or holds a live result of
one byte, 0x61 at 1000. -/

def besideRunning (s : State) : Platform 2 := #v[running [2, 0x61] 6 0 8 0 [] 0 0, s]

def besideResult (s : State) : Platform 2 := #v[succeeded [0, 0x61] [0x61] [], s]

def platformRefusal {n : Nat} (o : Host.Outcome (Platform n) Fault Refusal) : Option Refusal :=
  match o with
  | .next _ => none
  | .fault _ => none
  | .refused r => some r

def platformNext {n : Nat} (o : Host.Outcome (Platform n) Fault Refusal) : Option (Platform n) :=
  match o with
  | .next pl => some pl
  | .fault _ => none
  | .refused _ => none

/-- An engine's turn, and a host write that reaches another engine's live result. -/
theorem witness_EnginesShareNothing :
    ((platformNext (Platform.step params 0 (besideRunning State.reset))).isSome = true ∧
      (besideRunning State.reset)[(0 : Fin 2)].agenda = []) ∧
    (platformNext (Platform.step params 1 (besideResult (failed [.writeOut 0 7])))).isSome = true := by
  decide

/-- R135: OUT at the last location of a running engine's OUT, IN there, and OUT on its IN are refused; the
next location is free. -/
theorem test_launch_beside_a_running_engine :
    platformRefusal (Platform.step params 1 (besideRunning (waiting [2] [.start (call 500 1 6 1005)]))) =
      some .launchSharesBuffer ∧
    platformRefusal (Platform.step params 1 (besideRunning (waiting [2] [.start (call 1005 1 6 500)]))) =
      some .launchSharesBuffer ∧
    platformRefusal (Platform.step params 1 (besideRunning (waiting [2] [.start (call 500 1 6 101)]))) =
      some .launchSharesBuffer ∧
    (platformNext (Platform.step params 1
      (besideRunning (waiting [2] [.start (call 500 1 6 1006)])))).isSome = true := by
  decide

/-- R135: two engines may read the same IN, and R50: not one the host would have had to change. -/
theorem test_two_engines_read_one_input :
    (platformNext (Platform.step params 1
      (besideRunning (waiting [2, 0x61] [.start (call 100 2 6 2000)])))).isSome = true ∧
    platformRefusal (Platform.step params 1
      (besideRunning (waiting [2, 0x62] [.start (call 100 2 6 2000)]))) = some .launchInputDisagrees := by
  decide

/-- R50, R142: a live result may be the next call's stream, with the bytes it has; R96 b: it is no place
for an OUT. -/
theorem test_launch_beside_a_live_result :
    (platformNext (Platform.step params 1
      (besideResult (waiting [0x61] [.start (call 1000 1 6 2000)])))).isSome = true ∧
    platformRefusal (Platform.step params 1
      (besideResult (waiting [0x62] [.start (call 1000 1 6 2000)]))) = some .launchInputDisagrees ∧
    platformRefusal (Platform.step params 1
      (besideResult (waiting [2] [.start (call 500 1 1 1000)]))) = some .launchSharesBuffer := by
  decide

/-- The launch clauses meet at the witnesses of the three tests above; here the hypotheses of the host
write's two clauses, at the first location of a running engine's OUT and at the last of its IN. -/
theorem witness_AccessesAcrossEnginesFollowOwnership :
    platformRefusal (Platform.step params 1 (besideRunning (failed [.writeOut 0 7]))) =
      some .hostTouchesOutput ∧
    platformRefusal (Platform.step params 1
      (besideRunning { failed [.writeOut 1 7] with dstBase := 100 })) =
      some .hostWritesInputDuringCall ∧
    (failed [.writeOut 0 7]).phase ≠ .run ∧
    (waiting [2] [.start (call 500 1 6 1006)]).phase ≠ .run ∧
    launchRefusal params (waiting [2] [.start (call 500 1 6 1006)]) (call 500 1 6 1006) = none := by
  decide

/-- R50: a host write to free memory that another engine's live result lies in is a write of that
result. -/
theorem test_host_write_reaches_a_live_result :
    (platformNext (Platform.step params 1 (besideResult (failed [.writeOut 0 7])))).map
      (fun pl => hostReadOut pl[(0 : Fin 2)] 0) = some (some 7) := by
  decide

/-- Engine 1 is launched on engine 0's live result. -/
theorem witness_EveryPlatformStepKeepsTheEnginesApart :
    PlatformInv params (besideResult (waiting [0x61] [.start (call 1000 1 6 2000)])) ∧
    (platformNext (Platform.step params 1
      (besideResult (waiting [0x61] [.start (call 1000 1 6 2000)])))).isSome = true := by
  refine ⟨⟨fun k => ?_, ?_, ?_, ?_, ?_⟩, by decide⟩
  · match k with
    | 0 => exact ⟨by decide, by decide, by decide, by decide, by decide, by decide, by decide, by decide,
        by decide, by decide, by decide⟩
    | 1 => exact ⟨by decide, by decide, by decide, by decide, by decide, by decide, by decide, by decide,
        by decide, by decide, by decide⟩
  · unfold Meets; decide
  · unfold Meets; decide
  · unfold Agree; decide
  · unfold Agree; decide
/-- R101, R50: a host write of OUT is refused in RUN, and changes nothing of a buffer that is free. -/
theorem test_host_write_by_owner :
    refusalOf (step { running [2] 6 0 8 0 [] 0 0 with agenda := [.writeOut 0 1] }) =
      some .hostTouchesOutput ∧
    (nextOf (step (failed [.writeOut 0 7]))) = some (failed []) := by
  decide

end Sys2Proof.Tests
end

namespace Sys2Proof.Machine

/-- Settles O32 (00_scope.md R7): item by item, and then through the agenda, the fixed machine is the
parametric one at `params`. -/
theorem execAndStepAreTheDefaultMachine : Obligations.ExecAndStepAreTheDefaultMachine :=
  ⟨exec_eq_execWith, step_eq_stepWith⟩

end Sys2Proof.Machine

/-! The family of 10_state.md: reset values, the host's view of the registers, and what every step keeps.
`MoveStep` says once what one move of the machine can do, and the invariant proofs go through it. -/

namespace Sys2Proof.Machine

/-! ### One move, inverted -/

/-- Everything one move can do to a state it is taken from, with its guards (10_state.md R10). -/
inductive MoveStep (p : Params) (s : State) : Move → State → Prop
  | engine {t : State} (hturn : EngineStep p s t) : MoveStep p s .engine t
  | startIgnored (op : StartOperands) (hrun : s.phase = .run) : MoveStep p s (.start op) s
  | start (op : StartOperands) (hstop : s.phase ≠ .run) (hlaunch : launchRefusal p s op = none) :
      MoveStep p s (.start op) (launch op s)
  | releaseIgnored (hnone : liveResult s = false) : MoveStep p s .release s
  | release (hlive : liveResult s = true) : MoveStep p s .release (dropResult s)
  | loadIn (bytes : List Byte) (hstop : s.phase ≠ .run) :
      MoveStep p s (.loadIn bytes) { s with inMem := Memory.ofBytes bytes }
  | writeFree (i : Nat) (v : Byte) (hfree : outOwner s = .hostFree) : MoveStep p s (.writeOut i v) s
  | writeResult (i : Nat) (v : Byte) (hmay : hostMayAccessOut s i = true) :
      MoveStep p s (.writeOut i v) { s with outMem := s.outMem.write i v }
  | reset : MoveStep p s .reset (resetEngine s)

/-- Everything a move that goes through can answer. -/
theorem moveBy_cases {p : Params} {m : Move} {s t : State}
    (h : moveBy (execWith p) p m s = .next t) : MoveStep p s m t := by
  cases m with
  | engine => exact .engine (engineTurn_cases h)
  | start op =>
    by_cases hrun : s.phase = .run
    · cases (start_of_run hrun).symm.trans h
      exact .startIgnored op hrun
    · obtain ⟨hlaunch, rfl⟩ := (start_next_iff hrun).1 h
      exact .start op hrun hlaunch
  | release =>
    cases h
    cases hlive : liveResult s with
    | false =>
      rw [release_other hlive]
      exact .releaseIgnored hlive
    | true =>
      rw [release_live hlive]
      exact .release hlive
  | loadIn bytes =>
    obtain ⟨hstop, rfl⟩ := hostLoadIn_next_iff.1 h
    exact .loadIn bytes hstop
  | writeOut i v =>
    obtain ⟨hfree, rfl⟩ | ⟨hmay, rfl⟩ := hostWriteOut_next_iff.1 h
    · exact .writeFree i v hfree
    · exact .writeResult i v hmay
  | reset =>
    cases h
    exact .reset

/-- The move a step takes: the agenda's first, or the engine's when the agenda is empty (log 7). -/
def nextMove (s : State) : Move := s.agenda.headD .engine

/-- The state that move is taken from: the same, with the move gone from the agenda. -/
def takeMove (s : State) : State := { s with agenda := s.agenda.tail }

/-- One step is one move, whichever agent makes it. -/
theorem stepWith_moveStep {p : Params} {s t : State} (h : stepWith p s = .next t) :
    MoveStep p (takeMove s) (nextMove s) t := by
  obtain ⟨hnil, hturn⟩ | ⟨m, ms, hcons, hmove⟩ := stepWith_cases h
  · have hsame : takeMove s = s := by rw [takeMove, hnil, List.tail_nil, ← hnil]
    have hmove : nextMove s = .engine := by rw [nextMove, hnil, List.headD_nil]
    rw [hsame, hmove]
    exact .engine (engineTurn_cases hturn)
  · rw [takeMove, nextMove, hcons]
    exact moveBy_cases hmove

/-! ### The invariant -/

/-- The output extended by one byte keeps R39's "exactly the indices `0 .. OUT_POS-1`". -/
theorem written_putByte {s : State} (h : Inv s) (v : Byte) :
    (putByte v s).outMem.map Prod.fst = List.range (putByte v s).outPos :=
  Memory.keys_write_next h.written v

theorem inv_takeMove {s : State} (h : Inv s) : Inv (takeMove s) := { h with }

/-- A success that reports what has been written (R97, R99). -/
theorem inv_finishSuccess {n : Nat} {s : State} (h : Inv s) (hrem : s.copyRem = 0)
    (hsize : (n = s.tgtLen ∧ s.outPos = s.tgtLen) ∨ (s.cmpLen = 0 ∧ n = 0 ∧ s.outPos = 0)) :
    Inv (finishSuccess n s) :=
  { h with
    copyInRun := fun _ => hrem
    supplied := nofun
    noResult := fun hdone => absurd rfl hdone
    success := fun _ _ => ⟨rfl, rfl, hsize⟩
    failure := nofun }

/-- A failure at a token boundary (R126). -/
theorem inv_raise {c : Cause} {s : State} (h : Inv s) (hrem : s.copyRem = 0) : Inv (raise c s) :=
  { h with
    copyInRun := fun _ => hrem
    supplied := nofun
    noResult := fun hdone => absurd rfl hdone
    success := nofun
    failure := fun _ _ => ⟨rfl, rfl, nofun⟩ }

theorem inv_ctrlTaken {p : Params} {c : Byte} {s : State} (h : Inv s)
    (hsel : selected p .ctrl s = true) : Inv (ctrlTaken c s) := by
  obtain ⟨-, -, -, -, hin⟩ := itemWanted_iff.1 (itemWanted_of_selected hsel)
  exact { h with
    inPos_le := hin
    fresh := nofun }

theorem inv_literalTaken {p : Params} {v : Byte} {s : State} (h : Inv s)
    (hsel : selected p .lit s = true) : Inv (literalTaken v s) := by
  obtain ⟨hrun, hrem, -, hout, hin⟩ := itemWanted_iff.1 (itemWanted_of_selected hsel)
  exact { h with
    written := written_putByte h v
    inPos_le := hin
    outPos_le := hout
    copying := .inl hrem
    fresh := nofun
    success := fun hdone => nomatch hrun.symm.trans hdone }

/-- An accepted reference arms a copy that stays within the output and the target (R81, R85, R86). -/
theorem inv_refTaken {p : Params} {d l : Nat} {s : State} (h : Inv s)
    (hsel : selected p .ref s = true) (hfit : p.refBytes ≤ s.cmpLen - s.inPos) (hdist : 1 ≤ d)
    (hreach : d ≤ s.outPos) : Inv (refTaken p d l s) := by
  obtain ⟨hrun, -, -, hout, hin⟩ := itemWanted_iff.1 (itemWanted_of_selected hsel)
  have hbytes := p.refBytes_pos
  have hclip : s.outPos + clippedCount l s ≤ s.tgtLen := by
    unfold clippedCount
    omega
  exact { h with
    inPos_le := by rw [refTaken_inPos, refTaken_cmpLen]; omega
    copying := .inr ⟨hdist, hreach, hclip⟩
    copyInRun := fun hstop => absurd hrun hstop
    fresh := fun hzero => by rw [refTaken_inPos] at hzero; omega }

/-- One byte copied leaves one byte less to copy (R88); a copy is never of a fresh call. -/
theorem inv_byteCopied {v : Byte} {s : State} (h : Inv s) (hrun : s.phase = .run)
    (hrem : 0 < s.copyRem) (hroom : s.outPos < s.tgtLen) : Inv (byteCopied v s) := by
  have hcopying : 1 ≤ s.copyDist ∧ s.copyDist ≤ s.outPos ∧ s.outPos + s.copyRem ≤ s.tgtLen :=
    h.copying.resolve_left hrem.ne'
  exact { h with
    written := written_putByte h v
    outPos_le := hroom
    copying := .inr (by rw [byteCopied_copyDist, byteCopied_outPos, byteCopied_copyRem,
      byteCopied_tgtLen]; omega)
    copyInRun := fun hstop => absurd hrun hstop
    fresh := fun hzero => absurd (h.fresh hzero).2.1 hrem.ne'
    success := fun hdone => nomatch hrun.symm.trans hdone }

/-- Every micro-step of the engine keeps the invariant. -/
theorem inv_engineStep {p : Params} {s t : State} (hstep : EngineStep p s t) (h : Inv s) : Inv t := by
  cases hstep with
  | none => exact h
  | copy v hrun hrem hroom => exact inv_byteCopied h hrun hrem hroom
  | zeroLength _ hrem hlen =>
    have hpos : s.inPos = 0 := Nat.le_zero.1 (hlen ▸ h.inPos_le)
    exact inv_finishSuccess h hrem (.inr ⟨hlen, rfl, (h.fresh hpos).1⟩)
  | target _ hrem _ hout => exact inv_finishSuccess h hrem (.inl ⟨rfl, hout⟩)
  | truncated _ hrem => exact inv_raise h hrem
  | oversized _ hrem => exact inv_raise h hrem
  | ctrl c hsel => exact inv_ctrlTaken h hsel
  | lit v hsel => exact inv_literalTaken h hsel
  | refFail bytes cause hsel =>
    exact inv_raise h (itemWanted_iff.1 (itemWanted_of_selected hsel)).2.1
  | ref bytes hsel hfit _ _ hdist hreach => exact inv_refTaken h hsel hfit hdist hreach

/-- A supplied launch starts a call in the invariant (R94, R96 a). -/
theorem inv_launch {op : StartOperands} {s : State} (hin : s.inMem.wf)
    (hsupplied : ∀ i < op.cmpLen, (s.inMem.read i).isSome = true) : Inv (launch op s) where
  inWf := hin
  written := rfl
  inPos_le := Nat.zero_le _
  outPos_le := Nat.zero_le _
  copying := .inl rfl
  copyInRun := fun _ => rfl
  fresh := fun _ => ⟨rfl, rfl, rfl⟩
  supplied := fun _ => hsupplied
  noResult := fun _ => ⟨rfl, rfl, rfl, rfl⟩
  success := nofun
  failure := nofun

/-- A reset keeps IN and gives every other register a value of the invariant (R33, log 4, log 15). -/
theorem inv_resetEngine {s : State} (hin : s.inMem.wf) : Inv (resetEngine s) where
  inWf := hin
  written := rfl
  inPos_le := le_rfl
  outPos_le := le_rfl
  copying := .inl rfl
  copyInRun := fun _ => rfl
  fresh := fun _ => ⟨rfl, rfl, rfl⟩
  supplied := nofun
  noResult := fun _ => ⟨rfl, rfl, rfl, rfl⟩
  success := nofun
  failure := nofun

theorem inv_dropResult {s : State} (h : Inv s) (hlive : liveResult s = true) : Inv (dropResult s) := by
  have hstop : s.phase ≠ .run := by simp [(liveResult_iff.1 hlive).1]
  exact { h with
    copyInRun := fun _ => h.copyInRun hstop
    supplied := nofun
    noResult := fun _ => ⟨rfl, rfl, rfl, rfl⟩
    success := nofun
    failure := nofun }

/-- A new stream in IN meets no call that relies on the old one. -/
theorem inv_loadIn {bytes : List Byte} {s : State} (h : Inv s) (hstop : s.phase ≠ .run) :
    Inv { s with inMem := Memory.ofBytes bytes } :=
  { h with
    inWf := Memory.ofBytes_wf bytes
    supplied := fun hrun => absurd hrun hstop }

/-- A host write within a live result falls on a byte already written. -/
theorem inv_writeResult {i : Nat} {v : Byte} {s : State} (h : Inv s)
    (hmay : hostMayAccessOut s i = true) : Inv { s with outMem := s.outMem.write i v } := by
  obtain ⟨hdone, hsuccess, hi⟩ := hostMayAccessOut_iff.1 hmay
  have hlisted : i ∈ s.outMem.map Prod.fst := by
    rw [h.written, List.mem_range]
    obtain ⟨-, -, hsize | hsize⟩ := h.success hdone hsuccess <;> omega
  exact { h with
    written := (Memory.keys_write_listed (Memory.wf_of_keys h.written) hlisted v).trans h.written }

/-- Every move, of the engine, the host or a reset, keeps the invariant. -/
theorem inv_moveStep {p : Params} {m : Move} {s t : State} (hstep : MoveStep p s m t) (h : Inv s) :
    Inv t := by
  cases hstep with
  | engine hturn => exact inv_engineStep hturn h
  | startIgnored => exact h
  | start op _ hlaunch => exact inv_launch h.inWf (launchRefusal_none_iff.1 hlaunch).1
  | releaseIgnored => exact h
  | release hlive => exact inv_dropResult h hlive
  | loadIn bytes hstop => exact inv_loadIn h hstop
  | writeFree => exact h
  | writeResult i v hmay => exact inv_writeResult h hmay
  | reset => exact inv_resetEngine h.inWf

/-- Settles O41 (10_state.md R32): each move keeps `Inv`, case by case of `MoveStep`. -/
theorem everyStepKeepsTheInvariant : Obligations.EveryStepKeepsTheInvariant :=
  fun _ _ _ h hstep => inv_moveStep (stepWith_moveStep hstep) (inv_takeMove h)

/-! ### The ranges -/

/-- The operand registers (R11, R12), as the operands of the START that gave them. -/
def operands (s : State) : StartOperands := ⟨s.srcBase, s.cmpLen, s.tgtLen, s.dstBase⟩

theorem inRange_operands {w : Widths} {s : State} (h : InRange w s) : (operands s).inRange w :=
  ⟨h.regs .srcBase, h.regs .cmpLen, h.regs .tgtLen, h.regs .dstBase⟩

/-- No result is larger than the target. -/
theorem resSize_le {s : State} (h : Inv s) : s.resSize ≤ s.tgtLen := by
  by_cases hdone : s.phase = .done
  · cases hs : s.resSuccess with
    | false => exact (h.failure hdone hs).1 ▸ Nat.zero_le _
    | true => obtain ⟨-, -, hsize | hsize⟩ := h.success hdone hs <;> omega
  · obtain ⟨-, hsize, -⟩ := h.noResult hdone
    omega

/-- The result handle is the output handle where there is one (R23). -/
theorem resData_le {s : State} (h : Inv s) : s.resData ≤ s.dstBase := by
  by_cases hdone : s.phase = .done
  · cases hs : s.resSuccess with
    | false => exact (h.failure hdone hs).2.1 ▸ Nat.zero_le _
    | true => exact (h.success hdone hs).2.1.le
  · obtain ⟨-, -, hdata, -⟩ := h.noResult hdone
    omega

/-- No copy is longer than the target (R32). -/
theorem copyRem_le {s : State} (h : Inv s) : s.copyRem ≤ s.tgtLen := by
  rcases h.copying with hrem | ⟨-, -, hrem⟩ <;> omega

/-- In the invariant the operands bound every other register but COPY_DIST, which an idle sequencer may
still hold from an earlier copy. -/
theorem inRange_of_inv {w : Widths} {s : State} (h : Inv s) (hops : (operands s).inRange w)
    (hdist : s.copyDist < 2 ^ w.lenW) (hagenda : ∀ op, Move.start op ∈ s.agenda → op.inRange w) :
    InRange w s := by
  obtain ⟨hsrc, hcmp, htgt, hdst⟩ := hops
  refine ⟨fun r => ?_, hagenda⟩
  cases r with
  | srcBase => exact hsrc
  | cmpLen => exact hcmp
  | tgtLen => exact htgt
  | dstBase => exact hdst
  | phase => exact BitVec.isLt _
  | resSuccess => exact BitVec.isLt _
  | resSize => exact (resSize_le h).trans_lt htgt
  | resData => exact (resData_le h).trans_lt hdst
  | err => exact BitVec.isLt _
  | inPos => exact h.inPos_le.trans_lt hcmp
  | ctrlIdx => exact s.ctrlIdx.isLt.trans (by decide : 9 < 2 ^ 4)
  | ctrl => exact BitVec.isLt _
  | outPos => exact h.outPos_le.trans_lt htgt
  | copyDist => exact hdist
  | copyRem => exact (copyRem_le h).trans_lt htgt

/-- No micro-step writes an operand register (R37) or the agenda. -/
theorem operands_engineStep {p : Params} {s t : State} (hstep : EngineStep p s t) :
    operands t = operands s ∧ t.agenda = s.agenda := by
  cases hstep <;> exact ⟨rfl, rfl⟩

/-- COPY_DIST is written only by an accepted reference, with a distance that reaches written output
(R19, R85). -/
theorem copyDist_engineStep {p : Params} {s t : State} (hstep : EngineStep p s t) :
    t.copyDist = s.copyDist ∨ t.copyDist ≤ s.outPos := by
  cases hstep with
  | ref bytes _ _ _ _ _ hreach => exact .inr hreach
  | _ => exact .inl rfl

@[simp] theorem readReg_takeMove (s : State) (r : Reg) : readReg (takeMove s) r = readReg s r := by
  cases r <;> rfl

theorem inRange_takeMove {w : Widths} {s : State} (h : InRange w s) : InRange w (takeMove s) where
  regs := fun r => by simpa using h.regs r
  agenda := fun op hop => h.agenda op (List.mem_of_mem_tail hop)

/-- A START that is the next move is one of those still to come. -/
theorem inRange_nextMove {w : Widths} {s : State} {op : StartOperands} (h : InRange w s)
    (hnext : nextMove s = .start op) : op.inRange w := by
  refine h.agenda op ?_
  unfold nextMove at hnext
  cases ha : s.agenda with
  | nil => simp [ha] at hnext
  | cons m ms =>
    rw [ha, List.headD_cons] at hnext
    exact hnext ▸ List.mem_cons_self

theorem inRange_engineStep {w : Widths} {p : Params} {s t : State} (hstep : EngineStep p s t)
    (h : Inv s) (hr : InRange w s) : InRange w t := by
  obtain ⟨hops, hagenda⟩ := operands_engineStep hstep
  refine inRange_of_inv (inv_engineStep hstep h) (hops ▸ inRange_operands hr) ?_ (hagenda ▸ hr.agenda)
  rcases copyDist_engineStep hstep with hsame | hreach
  · exact hsame ▸ hr.regs .copyDist
  · exact hreach.trans_lt (hr.regs .outPos)

/-- Every move keeps the ranges, if the operands of a START are in range. -/
theorem inRange_moveStep {w : Widths} {p : Params} {m : Move} {s t : State} (hstep : MoveStep p s m t)
    (h : Inv s) (hr : InRange w s) (hop : ∀ op, m = .start op → op.inRange w) : InRange w t := by
  have ht : Inv t := inv_moveStep hstep h
  cases hstep with
  | engine hturn => exact inRange_engineStep hturn h hr
  | start op => exact inRange_of_inv ht (hop op rfl) (Nat.two_pow_pos _) hr.agenda
  | reset =>
    have hops : (operands (resetEngine s)).inRange w :=
      ⟨Nat.two_pow_pos _, Nat.two_pow_pos _, Nat.two_pow_pos _, Nat.two_pow_pos _⟩
    exact inRange_of_inv ht hops (Nat.two_pow_pos _) hr.agenda
  | _ =>
    have hops : (operands s).inRange w := inRange_operands hr
    exact inRange_of_inv ht hops (hr.regs .copyDist) hr.agenda

/-- Settles O43 (10_state.md R32): the operand registers change only by a START in range, or to 0, and in
the invariant they bound the rest. -/
theorem everyStepKeepsRegistersInRange : Obligations.EveryStepKeepsRegistersInRange :=
  fun _ _ _ _ h hr hstep => inRange_moveStep (stepWith_moveStep hstep) (inv_takeMove h)
    (inRange_takeMove hr) fun _ => inRange_nextMove hr

/-! ### Reset, the host's view of the registers, and the invariants' base case -/

theorem stepWith_reset {p : Params} {s : State} {ms : List Move} (h : s.agenda = .reset :: ms) :
    stepWith p s = .next (resetEngine { s with agenda := ms }) := stepWith_cons h

/-- Settles O1 (10_state.md R33, 70_reset_and_hazards.md R139): the state after a reset move is
`resetEngine` of the state before, which is not in RUN. -/
theorem resetGivesTheSpecifiedValues : Obligations.ResetGivesTheSpecifiedValues :=
  ⟨⟨rfl, rfl, rfl, rfl, rfl⟩, fun _ _ _ h =>
    ⟨_, stepWith_reset h, rfl, rfl, rfl, rfl, rfl, rfl, rfl, rfl, engineTurn_none nofun⟩⟩

/-- The read column of R27, register by register, is an interval of reference numbers. -/
theorem hostReads_iff (r : Reg) : r.hostReads = true ↔ 4 ≤ r.number ∧ r.number ≤ 8 := by
  cases r <;> decide

/-- Settles O8 (10_state.md R27, R28). -/
theorem hostReadsRegistersFourToEight : Obligations.HostReadsRegistersFourToEight := fun s r => by
  simp only [hostReadReg, hostReads_iff]

theorem outInUse_of_idle {s : State} (h : s.phase = .idle) : outInUse s = false := by
  simp [outInUse, liveResult, h]

/-- Engines that neither run nor hold a result share nothing. -/
theorem platformInv_of_idle {n : Nat} {p : Params} {pl : Platform n} (hinv : ∀ k : Fin n, Inv pl[k])
    (hidle : ∀ k : Fin n, pl[k].phase = .idle) : PlatformInv p pl := by
  have hrun : ∀ k : Fin n, pl[k].phase ≠ .run := fun k hrun => nomatch (hidle k).symm.trans hrun
  have hfree : ∀ k : Fin n, outInUse pl[k] = false := fun k => outInUse_of_idle (hidle k)
  exact {
    engines := hinv
    outs := fun j _ _ hj => nomatch (hfree j).symm.trans hj
    inOut := fun j _ hj => absurd hj (hrun j)
    inputs := fun j _ _ hj => absurd hj (hrun j)
    chained := fun j _ _ hj => absurd hj (hrun j) }

/-- Nothing is listed in IN after reset, so this is a case of a reset move. -/
theorem inv_reset : Inv State.reset := inv_resetEngine (s := State.reset) List.Pairwise.nil

/-- Settles O40 (10_state.md R32, R33): every engine of the platform is in IDLE. -/
theorem invariantHoldsAtReset : Obligations.InvariantHoldsAtReset := by
  refine ⟨inv_reset, fun n p => platformInv_of_idle (fun k => ?_) fun k => ?_⟩
  · simpa using inv_reset
  · simp [State.reset]

end Sys2Proof.Machine

/-! The family of 20_memory.md: what the engine writes, how every step keeps the memories, and who may touch
the buffers when. `inMem_engineStep` and `outMem_engineStep` say once what a micro-step does to IN and to
OUT. -/

namespace Sys2Proof.Machine

/-! ### What the engine writes -/

/-- IN is the one buffer the engine only reads (R37). -/
theorem inMem_engineStep {p : Params} {s t : State} (hstep : EngineStep p s t) : t.inMem = s.inMem := by
  cases hstep <;> rfl

/-- Settles O34 (20_memory.md R37): no case of a micro-step writes IN, an operand register or the agenda. -/
theorem engineNeverWritesInputOrOperands : Obligations.EngineNeverWritesInputOrOperands := by
  intro p s t hturn
  have hstep : EngineStep p s t := engineTurn_cases hturn
  have hin : t.inMem = s.inMem := inMem_engineStep hstep
  obtain ⟨hops, hagenda⟩ := operands_engineStep hstep
  obtain ⟨hsrc, hcmp, htgt, hdst⟩ := StartOperands.mk.inj hops
  exact ⟨fun i => by rw [hin], hin, hsrc, hcmp, htgt, hdst, hagenda⟩

/-- A micro-step writes the next byte of OUT, below the target, or leaves OUT and its cursor alone (R39). -/
theorem outMem_engineStep {p : Params} {s t : State} (hstep : EngineStep p s t) :
    (t.outPos = s.outPos ∧ t.outMem = s.outMem) ∨
      (t.outPos = s.outPos + 1 ∧ s.outPos < s.tgtLen ∧ ∃ v, t.outMem = s.outMem.write s.outPos v) := by
  cases hstep with
  | copy v _ _ hroom => exact .inr ⟨rfl, hroom, v, rfl⟩
  | lit v hsel =>
    obtain ⟨-, -, -, hroom, -⟩ := itemWanted_iff.1 (itemWanted_of_selected hsel)
    exact .inr ⟨rfl, hroom, v, rfl⟩
  | _ => exact .inl ⟨rfl, rfl⟩

/-- Settles O35 (20_memory.md R39, R41): LIT and COPY write at `OUT_POS`, nothing else writes OUT, and the
invariant after the turn lists the written indices. -/
theorem outputIsWrittenInAscendingOrder : Obligations.OutputIsWrittenInAscendingOrder := by
  intro p s t h hturn
  have hstep : EngineStep p s t := engineTurn_cases hturn
  refine ⟨?_, Memory.read_isSome_of_keys (inv_engineStep hstep h).written⟩
  rcases outMem_engineStep hstep with ⟨hpos, hmem⟩ | ⟨hpos, hroom, v, hmem⟩
  · exact .inl ⟨hpos, fun j => by rw [hmem]⟩
  · exact .inr ⟨hpos, hroom, fun j hj => by rw [hmem, Memory.read_write_other _ v hj]⟩

/-! ### The canonical form of the memories (log 5) -/

theorem memoriesWf_takeMove {s : State} (h : MemoriesWf s) : MemoriesWf (takeMove s) := ⟨h.inMem, h.outMem⟩

theorem memoriesWf_engineStep {p : Params} {s t : State} (hstep : EngineStep p s t) (h : MemoriesWf s) :
    MemoriesWf t := by
  refine ⟨inMem_engineStep hstep ▸ h.inMem, ?_⟩
  rcases outMem_engineStep hstep with ⟨-, hmem⟩ | ⟨-, -, v, hmem⟩
  · exact hmem ▸ h.outMem
  · exact hmem ▸ Memory.write_wf h.outMem _ v

/-- A move leaves a memory as it is, empties it, places a stream in it or writes a byte of it. -/
theorem memoriesWf_moveStep {p : Params} {m : Move} {s t : State} (hstep : MoveStep p s m t)
    (h : MemoriesWf s) : MemoriesWf t := by
  cases hstep with
  | engine hturn => exact memoriesWf_engineStep hturn h
  | start op => exact ⟨h.inMem, List.Pairwise.nil⟩
  | loadIn bytes => exact ⟨Memory.ofBytes_wf bytes, h.outMem⟩
  | writeResult i v => exact ⟨h.inMem, Memory.write_wf h.outMem i v⟩
  | reset => exact ⟨h.inMem, List.Pairwise.nil⟩
  | _ => exact ⟨h.inMem, h.outMem⟩

/-- Settles O42 (20_memory.md R35): each move keeps both memories canonical, case by case of `MoveStep`. -/
theorem everyStepKeepsMemoriesCanonical : Obligations.EveryStepKeepsMemoriesCanonical :=
  fun _ _ _ h hstep => memoriesWf_moveStep (stepWith_moveStep hstep) (memoriesWf_takeMove h)

/-! ### Broken launches -/

theorem inputPresent_eq_false_iff {s : State} {op : StartOperands} :
    inputPresent s op = false ↔ ∃ i < op.cmpLen, s.inMem.read i = none := by
  simp [inputPresent]

/-- Duty (a) of R96 is looked at first (log 11). -/
theorem launchRefusal_of_absent {p : Params} {s : State} {op : StartOperands}
    (h : ∃ i < op.cmpLen, s.inMem.read i = none) : launchRefusal p s op = some .launchInputAbsent :=
  if_pos (inputPresent_eq_false_iff.2 h)

theorem launchRefusal_of_overlap {p : Params} {s : State} {op : StartOperands}
    (hpresent : ∀ i < op.cmpLen, (s.inMem.read i).isSome = true)
    (hmeet : ∃ i < op.cmpLen, ∃ j < op.tgtLen, p.locate op.srcBase i = p.locate op.dstBase j) :
    launchRefusal p s op = some .launchBuffersOverlap := by
  simp [launchRefusal, inputPresent_iff.2 hpresent, buffersMeet_iff.2 hmeet]

/-- A launch the premises forbid stops the step, whatever moves are still to come. -/
theorem stepWith_start_refused {p : Params} {s : State} {op : StartOperands} {ms : List Move} {r : Refusal}
    (hnext : s.agenda = .start op :: ms) (hstop : s.phase ≠ .run) (h : launchRefusal p s op = some r) :
    stepWith p s = .refused r := by
  have hstart : launchRefusal p { s with agenda := ms } op = some r := h
  simp [stepWith_cons hnext, moveBy, start, hstop, hstart]

/-- Settles O3 (20_memory.md R46, 44_host_commands.md R96). -/
theorem brokenLaunchIsRefused : Obligations.BrokenLaunchIsRefused := fun _ _ _ _ hnext hstop =>
  ⟨fun habsent => stepWith_start_refused hnext hstop (launchRefusal_of_absent habsent),
    fun hpresent hmeet =>
      stepWith_start_refused hnext hstop (launchRefusal_of_overlap hpresent hmeet)⟩

/-! ### Who may touch the buffers -/

/-- Without a live result no host read of OUT has a value (R50, R100, log 17). -/
theorem hostReadOut_of_not_live {s : State} (h : liveResult s = false) (i : Nat) :
    hostReadOut s i = none := by
  simp [hostReadOut, hostMayAccessOut, h]

theorem hostReadOut_of_mayAccess {s : State} {i : Nat} (h : hostMayAccessOut s i = true) :
    hostReadOut s i = s.outMem.read i := if_pos h

theorem hostLoadIn_of_run {bytes : List Byte} {s : State} (h : s.phase = .run) :
    hostLoadIn bytes s = .refused .hostWritesInputDuringCall := if_pos h

theorem hostWriteOut_of_run {i : Nat} {v : Byte} {s : State} (h : s.phase = .run) :
    hostWriteOut i v s = .refused .hostTouchesOutput := by
  simp [hostWriteOut, outOwner, h]

/-- A host write within a live result writes that byte of OUT and nothing else (R50). -/
theorem stepWith_writeOut_of_mayAccess {p : Params} {s : State} {i : Nat} {v : Byte} {ms : List Move}
    (hnext : s.agenda = .writeOut i v :: ms) (hmay : hostMayAccessOut s i = true) :
    stepWith p s = .next { s with agenda := ms, outMem := s.outMem.write i v } := by
  rw [stepWith_cons hnext]
  exact hostWriteOut_next_iff.2 (.inr ⟨hmay, rfl⟩)

/-- Settles O7 (20_memory.md R50): the engine owns OUT in RUN, a live result is the host's below `RES_SIZE`,
and a failure leaves none. -/
theorem hostAccessToBuffersFollowsOwnership : Obligations.HostAccessToBuffersFollowsOwnership := by
  intro p s ms
  refine ⟨fun hrun => ⟨fun bytes hnext => ?_, fun i v hnext => ?_, ?_⟩, fun hdone hsuccess i hi => ?_,
    fun _ hfailure => ?_⟩
  · rw [stepWith_cons hnext]
    exact hostLoadIn_of_run hrun
  · rw [stepWith_cons hnext]
    exact hostWriteOut_of_run hrun
  · exact hostReadOut_of_not_live (by simp [liveResult, hrun])
  · have hmay : hostMayAccessOut s i = true := hostMayAccessOut_iff.2 ⟨hdone, hsuccess, hi⟩
    refine ⟨hostReadOut_of_mayAccess hmay, fun v hnext => ?_⟩
    exact ⟨_, stepWith_writeOut_of_mayAccess hnext hmay, Memory.read_write_same _ i v,
      fun j hj => Memory.read_write_other _ v hj, rfl⟩
  · exact hostReadOut_of_not_live (by simp [liveResult, hfailure])

end Sys2Proof.Machine

/-! The family of 30_encoding.md: the control byte's flags, the reference token as a pair of fields, decode
against encode for every kind, and the engine's turn at a decoded item. `decode_ctrl_iff`, `decode_lit_iff`
and `decode_ref_iff` say once what each kind decodes. -/

namespace Sys2Proof.Machine

/-! ### The two fields of a reference token (R57, R58) -/

theorem wf_ref_iff {lay : RefLayout} {d l : Nat} :
    (Instr.ref d l).wf lay = true ↔ lay.distanceFits d ∧ lay.lengthFits l := by
  simp [Instr.wf]

/-- The bytes of an encoded reference are the two bytes of its token, the more significant first. -/
theorem token_encode_ref {lay : RefLayout} {d l : Nat} (h : (Instr.ref d l).wf lay = true) :
    RefLayout.token (encode lay (.ref d l)) = lay.assemble d l := by
  have hlt : lay.assemble d l < 2 ^ 16 := assemble_lt h
  simp only [encode, token_pair, BitVec.toNat_ofNat]
  omega

/-- The extractor finds the two fields in the token they were put in. -/
theorem extract_encode_ref {lay : RefLayout} {d l : Nat} (h : (Instr.ref d l).wf lay = true) :
    lay.extract (encode lay (.ref d l)) = (d, l) := by
  obtain ⟨hd, hmin, -⟩ := wf_ref_iff.1 h
  have hdist : lay.assemble d l % 2 ^ (16 - lay.matchBits) = d := Nat.mul_add_mod_of_lt hd
  have hlen : lay.assemble d l / 2 ^ (16 - lay.matchBits) = l - lay.matchMin := by
    rw [RefLayout.assemble, Nat.add_comm, Nat.add_mul_div_right _ _ (Nat.two_pow_pos _),
      Nat.div_eq_of_lt hd, Nat.zero_add]
  rw [RefLayout.extract, token_encode_ref h, hdist, hlen, Nat.sub_add_cancel hmin]

/-- The two fields of a token make up the whole of it. -/
theorem assemble_extract (lay : RefLayout) (bytes : List Byte) :
    lay.assemble (lay.extract bytes).1 (lay.extract bytes).2 = RefLayout.token bytes := by
  rw [RefLayout.assemble, RefLayout.extract, Nat.add_sub_cancel, Nat.mul_comm, Nat.div_add_mod]

theorem token_pair_lt (b0 b1 : Byte) : RefLayout.token [b0, b1] < 2 ^ 16 := by
  rw [token_pair]
  omega

/-- What the extractor reads from two bytes fits its fields. -/
theorem extract_pair_wf (lay : RefLayout) (b0 b1 : Byte) :
    (Instr.ref (lay.extract [b0, b1]).1 (lay.extract [b0, b1]).2).wf lay = true := by
  have hm := lay.matchBits_le
  have hlen : RefLayout.token [b0, b1] / 2 ^ (16 - lay.matchBits) < 2 ^ lay.matchBits := by
    rw [Nat.div_lt_iff_lt_mul (Nat.two_pow_pos _), ← pow_add,
      show lay.matchBits + (16 - lay.matchBits) = 16 by omega]
    exact token_pair_lt b0 b1
  exact wf_ref_iff.2 ⟨Nat.mod_lt _ (Nat.two_pow_pos _), Nat.le_add_left _ _,
    (Nat.add_comm _ _).trans_lt (Nat.add_lt_add_left hlen _)⟩

theorem encode_extract_pair (lay : RefLayout) (b0 b1 : Byte) :
    encode lay (.ref (lay.extract [b0, b1]).1 (lay.extract [b0, b1]).2) = [b0, b1] := by
  have hhigh : BitVec.ofNat 8 ((256 * b0.toNat + b1.toNat) / 256) = b0 := by bv_omega
  have hlow : BitVec.ofNat 8 (256 * b0.toNat + b1.toNat) = b1 := by bv_omega
  rw [encode, assemble_extract, token_pair, hhigh, hlow]

/-! ### Decoding, inverted -/

theorem decode_ctrl_iff {p : Params} {bytes rest : List Byte} {i : Instr} :
    decode p .ctrl bytes = .ok (i, rest) ↔ ∃ c, i = .ctrl c ∧ bytes = c :: rest := by
  cases bytes <;> simp [decode, eq_comm]

theorem decode_lit_iff {p : Params} {bytes rest : List Byte} {i : Instr} :
    decode p .lit bytes = .ok (i, rest) ↔ ∃ v, i = .lit v ∧ bytes = v :: rest := by
  cases bytes <;> simp [decode, eq_comm]

theorem decode_ref_iff {p : Params} {bytes rest : List Byte} {i : Instr} :
    decode p .ref bytes = .ok (i, rest) ↔ ∃ token : List Byte, token.length = p.refBytes ∧
      i = .ref (p.refDecode token).1 (p.refDecode token).2 ∧ bytes = token ++ rest := by
  constructor
  · intro h
    simp only [decode] at h
    split at h
    · cases h
    · next hlen =>
      cases h
      exact ⟨bytes.take p.refBytes, List.length_take_of_le (by omega), rfl,
        (List.take_append_drop _ _).symm⟩
  · rintro ⟨token, hlen, rfl, rfl⟩
    simp [decode, ← hlen]

/-! ### Decode against encode -/

/-- Settles O27 (R54 to R58, R68): a control byte and a literal are their own encoding, and a reference's
two fields are found again in its token. -/
theorem decodeOfEncodeIsTheItem : Obligations.DecodeOfEncodeIsTheItem := by
  intro lay order refFlag i rest hwf
  cases i with
  | ctrl c => exact decode_ctrl_iff.2 ⟨c, rfl, rfl⟩
  | lit v => exact decode_lit_iff.2 ⟨v, rfl, rfl⟩
  | ref d l =>
    have hfields : (lay.params order refFlag).refDecode (encode lay (.ref d l)) = (d, l) :=
      extract_encode_ref hwf
    exact decode_ref_iff.2 ⟨encode lay (.ref d l), rfl, by rw [hfields], rfl⟩

/-- Settles O28 (R57, R63, R64): the two bytes of a reference are all of its token. -/
theorem encodeOfDecodeIsTheBytes : Obligations.EncodeOfDecodeIsTheBytes := by
  intro lay order refFlag kind bytes rest i hdec
  cases kind with
  | ctrl =>
    obtain ⟨c, rfl, rfl⟩ := decode_ctrl_iff.1 hdec
    exact ⟨rfl, rfl, rfl⟩
  | lit =>
    obtain ⟨v, rfl, rfl⟩ := decode_lit_iff.1 hdec
    exact ⟨rfl, rfl, rfl⟩
  | ref =>
    obtain ⟨token, hlen, rfl, rfl⟩ := decode_ref_iff.1 hdec
    obtain ⟨b0, b1, rfl⟩ := List.length_eq_two.1 hlen
    exact ⟨extract_pair_wf lay b0 b1, rfl, congrArg (· ++ rest) (encode_extract_pair lay b0 b1)⟩

/-! ### The flags of a control byte -/

/-- Flag `k` of a control byte made from a list of flags: the numbering of the bits is its own inverse. -/
theorem flag_ctrlByteOf (p : Params) (isRef : List Bool) {k : Nat} (hk : k < 8) :
    flag p (ctrlByteOf p isRef) k = (isRef.getD k false == p.refFlag) := by
  rw [flag, ctrlByteOf, BitVec.getLsbD_ofFnLE, dif_pos (flagBit_lt hk), flagBit_flagBit hk]

/-- Settles O24 (R54, R66, R68): a flag equals `REF_FLAG` exactly when the listed one is `true`, whichever
value `REF_FLAG` has. -/
theorem controlByteCarriesItsFlags : Obligations.ControlByteCarriesItsFlags := by
  intro p isRef k hk
  rw [flag_ctrlByteOf p isRef hk]
  cases isRef.getD k false <;> simp

/-! ### Words of the opcode table -/

/-- Settles O29 (R54, R57, 95_test_vectors.md T14): the decoder is run on the four words. -/
theorem opcodeTableWordsDecode : Obligations.OpcodeTableWordsDecode := by
  unfold Obligations.OpcodeTableWordsDecode
  decide

/-! ### The turn at a decoded item -/

/-- A token whose bytes were all read is not cut short by the end of the input (42_reference.md R83). -/
theorem tokenCut_of_inBytes {p : Params} {s : State} {bytes : List Byte}
    (h : inBytes s s.inPos p.refBytes = some bytes) : tokenCut p s = false := by
  obtain ⟨hlen, hread⟩ := inBytes_eq_some.1 h
  have hpos := p.refBytes_pos
  have hlast := hread (p.refBytes - 1) (by omega)
  rw [List.getElem?_eq_getElem (by omega)] at hlast
  obtain ⟨hin, -⟩ := inRead_eq_some.1 hlast
  exact tokenCut_eq_false.2 (by omega)

/-- Fetching gives the item the bytes at `IN_POS` decode to. -/
theorem fetchItem_of_decode {p : Params} {s : State} {kind : ItemKind} {bytes rest : List Byte} {i : Instr}
    (hbytes : inBytes s s.inPos (itemBytes p kind) = some bytes)
    (hdec : decode p kind bytes = .ok (i, rest)) : fetchItem p kind s = .item i := by
  have hcut : (kind == .ref && tokenCut p s) = false := by
    cases kind with
    | ref => exact tokenCut_of_inBytes hbytes
    | _ => rfl
  simp [fetchItem, hcut, hbytes, hdec]

/-- Settles O31 (R59, R60, 40_sequencer.md R69): dispatch names the selected kind and fetching gives `i`. -/
theorem engineTurnRunsTheDecodedItem : Obligations.EngineTurnRunsTheDecodedItem :=
  fun _ _ _ _ _ _ hsel hbytes hdec =>
    engineTurn_item (dispatch_of_selected hsel) (fetchItem_of_decode hbytes hdec)

/-- Settles O30: a step is the engine's turn, and what it selects and reads does not depend on the agenda. -/
theorem stepRunsTheDecodedItem : Obligations.StepRunsTheDecodedItem := by
  intro s kind bytes rest i hsel hbytes hdec
  rw [step_eq_stepWith]
  refine ⟨fun hnil => ?_, fun ms hnext => ?_⟩
  · rw [stepWith_nil hnil, exec_eq_execWith]
    exact engineTurnRunsTheDecodedItem params s kind bytes rest i hsel hbytes hdec
  · rw [stepWith_engine hnext, exec_eq_execWith]
    have hbytes' : inBytes { s with agenda := ms } s.inPos (itemBytes params kind) = some bytes :=
      (inBytes_congr (s := s) (t := { s with agenda := ms }) rfl rfl _ _).trans hbytes
    have hsel' : selected params kind { s with agenda := ms } = true :=
      (selected_agenda params kind s ms).trans hsel
    exact engineTurnRunsTheDecodedItem params _ kind bytes rest i hsel' hbytes' hdec

end Sys2Proof.Machine

/-! The family of 40_sequencer.md: the order of dispatch, the turns it leads to, the program counter, and which
control byte classifies which token. `consumption_engineStep` says once what a micro-step consumes from the
stream and what that does to the block state. -/

namespace Sys2Proof.Machine

/-! ### Dispatch, one lemma a test (R69) -/

theorem dispatch_of_not_run {p : Params} {s : State} (h : s.phase ≠ .run) : dispatch p s = .none := if_pos h

theorem dispatch_copy {p : Params} {s : State} (hrun : s.phase = .run) (hrem : 0 < s.copyRem) :
    dispatch p s = .copy := by
  simp [dispatch, hrun, hrem]

theorem dispatch_zeroLength {p : Params} {s : State} (hrun : s.phase = .run) (hrem : s.copyRem = 0)
    (hlen : s.cmpLen = 0) : dispatch p s = .finish 0 := by
  simp [dispatch, hrun, hrem, hlen]

theorem dispatch_target {p : Params} {s : State} (hrun : s.phase = .run) (hrem : s.copyRem = 0)
    (hlen : s.cmpLen ≠ 0) (hout : s.outPos = s.tgtLen) : dispatch p s = .finish s.tgtLen := by
  simp [dispatch, hrun, hrem, hlen, hout]

theorem dispatch_truncated {p : Params} {s : State} (hrun : s.phase = .run) (hrem : s.copyRem = 0)
    (hlen : s.cmpLen ≠ 0) (hout : s.outPos ≠ s.tgtLen) (hin : s.inPos = s.cmpLen) :
    dispatch p s = .truncated := by
  simp [dispatch, hrun, hrem, hlen, hout, hin]

/-- Past the first three tests the block state alone names the item (R69 tests 4 to 6). -/
theorem dispatch_boundary {p : Params} {s : State} (hrun : s.phase = .run) (hrem : s.copyRem = 0)
    (hlen : s.cmpLen ≠ 0) (hout : s.outPos ≠ s.tgtLen) (hin : s.inPos ≠ s.cmpLen) :
    dispatch p s = .item (if s.ctrlIdx = 8 then .ctrl else if nextIsRef p s then .ref else .lit) := by
  simp only [dispatch, hrun, hrem, hlen, hout, hin, ne_eq, not_true_eq_false, lt_irrefl, if_false]
  split_ifs <;> rfl

theorem dispatch_ref {p : Params} {s : State} (hrun : s.phase = .run) (hrem : s.copyRem = 0)
    (hlen : s.cmpLen ≠ 0) (hout : s.outPos ≠ s.tgtLen) (hin : s.inPos ≠ s.cmpLen)
    (hidx : s.ctrlIdx.val < 8) (href : nextIsRef p s = true) : dispatch p s = .item .ref := by
  rw [dispatch_boundary hrun hrem hlen hout hin, if_neg (ctrlIdx_lt_eight_iff.1 hidx), if_pos href]

theorem nextIsRef_iff {p : Params} {s : State} :
    nextIsRef p s = true ↔ flag p s.ctrl s.ctrlIdx.val = p.refFlag := beq_iff_eq

/-- Settles O10 (R69): one lemma for each test, in their order. -/
theorem dispatchTakesTheFirstTestThatHolds : Obligations.DispatchTakesTheFirstTestThatHolds := by
  intro p s
  refine ⟨dispatch_of_not_run, dispatch_copy, fun hrun hrem => ⟨dispatch_zeroLength hrun hrem,
    fun hlen => ⟨dispatch_target hrun hrem hlen, fun hout => ⟨dispatch_truncated hrun hrem hlen hout,
    fun hin => ?_⟩⟩⟩⟩
  refine ⟨fun hidx => ?_, fun hidx hflag => ?_,
    fun hidx hflag => dispatch_ref hrun hrem hlen hout hin hidx (nextIsRef_iff.2 hflag)⟩
  · rw [dispatch_boundary hrun hrem hlen hout hin, if_pos (Fin.ext hidx)]
  · rw [dispatch_boundary hrun hrem hlen hout hin, if_neg (ctrlIdx_lt_eight_iff.1 hidx),
      if_neg (mt nextIsRef_iff.1 hflag)]

/-! ### The turns dispatch leads to -/

/-- Settles O11 (R70). -/
theorem zeroLengthInputFinishesWithSizeZero : Obligations.ZeroLengthInputFinishesWithSizeZero :=
  fun _ _ hrun hrem hlen => engineTurn_zeroLength hrun hrem hlen

/-- Settles O12 (R71). -/
theorem targetReachedFinishesWithTheTarget : Obligations.TargetReachedFinishesWithTheTarget :=
  fun _ _ hrun hrem hlen hout => engineTurn_target hrun hrem hlen.ne' hout

/-- Settles O13 (R75): the flag is tested after the input, so the state of the block has no say. -/
theorem exhaustedInputRaisesTruncatedInput : Obligations.ExhaustedInputRaisesTruncatedInput :=
  fun _ s hrun hrem hlen hout hin =>
    ⟨raise .truncatedInput s, engineTurn_truncated hrun hrem hlen.ne' hout.ne hin, rfl, rfl, rfl⟩

/-- Settles O14 (R72): the premises are the selector of CTRL, which no parameter enters. -/
theorem ctrlLatchesTheControlByte : Obligations.CtrlLatchesTheControlByte := by
  intro c s hrun hrem hlen hout hin hidx
  have hsel : ∀ p : Params, selected p .ctrl s = true := fun p =>
    selected_ctrl_iff.2 ⟨itemWanted_iff.2 ⟨hrun, hrem, hlen, hout, hin⟩, hidx⟩
  refine ⟨?_, fun p hread => engineTurn_ctrl (hsel p) hread⟩
  rw [exec_eq_execWith]
  exact ctrlFetch_next_iff.2 ⟨hsel params, rfl⟩

/-- Settles O23 (R73). -/
theorem flagPicksTheBitOfTheOrder : Obligations.FlagPicksTheBitOfTheOrder := by
  intro p c k
  constructor <;> intro horder <;> rw [flag, horder] <;> rfl

/-! ### The program counter -/

/-- Settles O33 (R76): each case of a micro-step is the one its dispatch names. -/
theorem programCounterMovesByTheTable : Obligations.ProgramCounterMovesByTheTable := by
  refine ⟨fun p op s t hbegin => ?_, fun p s t hturn => ?_⟩
  · obtain ⟨-, -, rfl⟩ := beginsCall_iff.1 hbegin
    exact ⟨rfl, rfl⟩
  · cases engineTurn_cases hturn with
    | none hstop =>
      rw [dispatch_of_not_run hstop]
      exact ⟨rfl, rfl⟩
    | copy v hrun hrem =>
      rw [dispatch_copy hrun hrem]
      exact ⟨rfl, rfl⟩
    | zeroLength hrun hrem hlen =>
      rw [dispatch_zeroLength hrun hrem hlen]
      exact ⟨rfl, rfl⟩
    | target hrun hrem hlen hout =>
      rw [dispatch_target hrun hrem hlen hout]
      exact ⟨rfl, rfl⟩
    | truncated hrun hrem hlen hout hin =>
      rw [dispatch_truncated hrun hrem hlen hout hin]
      exact ⟨rfl, rfl⟩
    | oversized hrun hrem hlen hout hin hidx href =>
      rw [dispatch_ref hrun hrem hlen hout hin hidx href]
      exact .inl ⟨rfl, rfl, rfl⟩
    | ctrl c hsel =>
      rw [dispatch_of_selected hsel]
      exact ⟨rfl, rfl⟩
    | lit v hsel =>
      rw [dispatch_of_selected hsel]
      exact ⟨rfl, ctrlIdx_succ_val (selected_lit_iff.1 hsel).2.1⟩
    | refFail bytes cause hsel =>
      rw [dispatch_of_selected hsel]
      exact .inl ⟨rfl, rfl, rfl⟩
    | ref bytes hsel =>
      obtain ⟨hwanted, hidx, -⟩ := selected_ref_iff.1 hsel
      rw [dispatch_of_selected hsel]
      exact .inr ⟨(itemWanted_iff.1 hwanted).1, rfl, ctrlIdx_succ_val hidx⟩

/-! ### The item a micro-step consumes -/

theorem nextItem_of_dispatch {p : Params} {s : State} {m : MicroStep} (hd : dispatch p s = m)
    (hm : ∀ kind, m ≠ .item kind) : nextItem p s = none := by
  subst hd
  unfold nextItem
  split
  · next kind hd => exact absurd hd (hm kind)
  all_goals rfl

theorem nextItem_oversized {p : Params} {s : State} (hd : dispatch p s = .item .ref)
    (hcut : s.cmpLen - s.inPos < p.refBytes) : nextItem p s = none := by
  have hf : fetchItem p .ref s = .oversized :=
    fetchItem_oversized_iff.2 ⟨rfl, decide_eq_true hcut⟩
  simp [nextItem, hd, hf]

theorem nextItem_ctrl {p : Params} {s : State} {c : Byte} (hsel : selected p .ctrl s = true)
    (hread : s.inMem.read s.inPos = some c) : nextItem p s = some (.ctrl c) := by
  obtain ⟨-, -, -, -, hin⟩ := itemWanted_iff.1 (itemWanted_of_selected hsel)
  have hf : fetchItem p .ctrl s = .item (.ctrl c) :=
    fetchItem_ctrl_iff.2 ⟨c, inRead_eq_some.2 ⟨hin, hread⟩, rfl⟩
  simp [nextItem, dispatch_of_selected hsel, hf]

theorem nextItem_lit {p : Params} {s : State} {v : Byte} (hsel : selected p .lit s = true)
    (hread : s.inMem.read s.inPos = some v) : nextItem p s = some (.lit v) := by
  obtain ⟨-, -, -, -, hin⟩ := itemWanted_iff.1 (itemWanted_of_selected hsel)
  have hf : fetchItem p .lit s = .item (.lit v) :=
    fetchItem_lit_iff.2 ⟨v, inRead_eq_some.2 ⟨hin, hread⟩, rfl⟩
  simp [nextItem, dispatch_of_selected hsel, hf]

/-- A reference whose bytes are all there is consumed if the header step accepts it. -/
theorem nextItem_ref {p : Params} {s : State} {bytes : List Byte} (hsel : selected p .ref s = true)
    (hbytes : inBytes s s.inPos p.refBytes = some bytes) :
    nextItem p s =
      if refFailure p (p.refDecode bytes).1 (p.refDecode bytes).2 s = none then
        some (.ref (p.refDecode bytes).1 (p.refDecode bytes).2)
      else none := by
  have hf : fetchItem p .ref s = .item (.ref (p.refDecode bytes).1 (p.refDecode bytes).2) :=
    fetchItem_ref_iff.2 ⟨tokenCut_of_inBytes hbytes, bytes, hbytes, rfl⟩
  simp [nextItem, dispatch_of_selected hsel, hf]

/-- What a micro-step that consumes the given item does to the block state (R72, R76). -/
inductive Consumption (p : Params) (s t : State) : Option Instr → Prop
  | nothing (hctrl : t.ctrl = s.ctrl) (hidx : t.ctrlIdx = s.ctrlIdx) : Consumption p s t none
  | control (c : Byte) (hfull : s.ctrlIdx.val = 8) (hctrl : t.ctrl = c) (hidx : t.ctrlIdx.val = 0) :
      Consumption p s t (some (.ctrl c))
  | token (i : Instr) (htoken : i.isToken = true) (hopen : s.ctrlIdx.val < 8)
      (hkind : flag p s.ctrl s.ctrlIdx.val = p.refFlag ↔ i.kind = .ref) (hctrl : t.ctrl = s.ctrl)
      (hidx : t.ctrlIdx.val = s.ctrlIdx.val + 1) : Consumption p s t (some i)

/-- What a micro-step consumes, case by case of `EngineStep`. -/
theorem consumption_engineStep {p : Params} {s t : State} (hstep : EngineStep p s t) :
    Consumption p s t (nextItem p s) := by
  cases hstep with
  | none hstop =>
    rw [nextItem_of_dispatch (dispatch_of_not_run hstop) nofun]
    exact .nothing rfl rfl
  | copy v hrun hrem =>
    rw [nextItem_of_dispatch (dispatch_copy hrun hrem) nofun]
    exact .nothing rfl rfl
  | zeroLength hrun hrem hlen =>
    rw [nextItem_of_dispatch (dispatch_zeroLength hrun hrem hlen) nofun]
    exact .nothing rfl rfl
  | target hrun hrem hlen hout =>
    rw [nextItem_of_dispatch (dispatch_target hrun hrem hlen hout) nofun]
    exact .nothing rfl rfl
  | truncated hrun hrem hlen hout hin =>
    rw [nextItem_of_dispatch (dispatch_truncated hrun hrem hlen hout hin) nofun]
    exact .nothing rfl rfl
  | oversized hrun hrem hlen hout hin hidx href hcut =>
    rw [nextItem_oversized (dispatch_ref hrun hrem hlen hout hin hidx href) hcut]
    exact .nothing rfl rfl
  | ctrl c hsel hread =>
    rw [nextItem_ctrl hsel hread]
    exact .control c (congrArg Fin.val (selected_ctrl_iff.1 hsel).2) rfl rfl
  | lit v hsel hread =>
    obtain ⟨-, hidx, hlit⟩ := selected_lit_iff.1 hsel
    rw [nextItem_lit hsel hread]
    exact .token (.lit v) rfl hidx (by simp [← nextIsRef_iff, hlit, Instr.kind]) rfl
      (ctrlIdx_succ_val hidx)
  | refFail bytes cause hsel _ hbytes hfail =>
    rw [nextItem_ref hsel hbytes, if_neg (by simp [hfail])]
    exact .nothing rfl rfl
  | ref bytes hsel hfit hbytes hlength hdist hreach =>
    obtain ⟨-, hidx, href⟩ := selected_ref_iff.1 hsel
    rw [nextItem_ref hsel hbytes, if_pos (refFailure_none_iff.2 ⟨hfit, hlength, hdist, hreach⟩)]
    exact .token (.ref _ _) rfl hidx (by simp [← nextIsRef_iff, href, Instr.kind]) rfl
      (ctrlIdx_succ_val hidx)

/-! ### Control bytes and tokens of the items consumed -/

@[simp] theorem controlsOf_append (xs ys : List Instr) :
    controlsOf (xs ++ ys) = controlsOf xs ++ controlsOf ys := List.filterMap_append

@[simp] theorem tokensOf_append (xs ys : List Instr) : tokensOf (xs ++ ys) = tokensOf xs ++ tokensOf ys :=
  List.filter_append ..

@[simp] theorem controlsOf_control (c : Byte) : controlsOf [.ctrl c] = [c] := rfl

@[simp] theorem tokensOf_control (c : Byte) : tokensOf [.ctrl c] = [] := rfl

theorem controlsOf_token {i : Instr} (h : i.isToken = true) : controlsOf [i] = [] := by
  cases i with
  | ctrl c => cases h
  | lit v => rfl
  | ref d l => rfl

theorem tokensOf_token {i : Instr} (h : i.isToken = true) : tokensOf [i] = [i] := by
  simp [tokensOf, h]

/-- R78 of a state and the items its call has consumed. -/
structure BlockInv (p : Params) (items : List Instr) (s : State) : Prop where
  /-- `CTRL` is the last control byte, every block before it is full, and `CTRL_IDX` counts its tokens -/
  counted : (controlsOf items = [] ∧ tokensOf items = [] ∧ s.ctrlIdx.val = 8) ∨
    ((controlsOf items).getLast? = some s.ctrl ∧
      (tokensOf items).length + 8 = 8 * (controlsOf items).length + s.ctrlIdx.val)
  classified : ∀ n i, (tokensOf items)[n]? = some i →
    ∃ c, (controlsOf items)[n / 8]? = some c ∧ (flag p c (n % 8) = p.refFlag ↔ i.kind = .ref)

/-- A full block is followed by a control byte, which classifies no token yet. -/
theorem blockInv_control {p : Params} {items : List Instr} {s t : State} {c : Byte}
    (h : BlockInv p items s) (hfull : s.ctrlIdx.val = 8) (hctrl : t.ctrl = c) (hidx : t.ctrlIdx.val = 0) :
    BlockInv p (items ++ [.ctrl c]) t where
  counted := by
    have hcount : (tokensOf items).length = 8 * (controlsOf items).length := by
      rcases h.counted with ⟨hc, ht, -⟩ | ⟨-, hcount⟩
      · simp [hc, ht]
      · omega
    exact .inr (by simp [hctrl, hidx, hcount, Nat.mul_add])
  classified := by
    intro n i hi
    obtain ⟨b, hb, hflag⟩ := h.classified n i (by simpa using hi)
    have hlt := (List.getElem?_eq_some_iff.1 hb).1
    exact ⟨b, by rw [controlsOf_append, List.getElem?_append_left hlt, hb], hflag⟩

/-- A token inside an open block is number `CTRL_IDX` of the block of the last control byte, whose flag of
that number classified it. -/
theorem blockInv_token {p : Params} {items : List Instr} {s t : State} {i : Instr}
    (h : BlockInv p items s) (htoken : i.isToken = true) (hopen : s.ctrlIdx.val < 8)
    (hkind : flag p s.ctrl s.ctrlIdx.val = p.refFlag ↔ i.kind = .ref) (hctrl : t.ctrl = s.ctrl)
    (hidx : t.ctrlIdx.val = s.ctrlIdx.val + 1) : BlockInv p (items ++ [i]) t := by
  have hcontrols : controlsOf (items ++ [i]) = controlsOf items := by
    rw [controlsOf_append, controlsOf_token htoken, List.append_nil]
  have htokens : tokensOf (items ++ [i]) = tokensOf items ++ [i] := by
    rw [tokensOf_append, tokensOf_token htoken]
  obtain ⟨-, -, hfull⟩ | ⟨hlast, hcount⟩ := h.counted
  · omega
  · refine ⟨.inr ?_, fun n j hj => ?_⟩
    · rw [hcontrols, htokens, hctrl, hidx, List.length_append, List.length_singleton]
      exact ⟨hlast, by omega⟩
    · rw [hcontrols]
      rw [htokens, List.getElem?_append] at hj
      split at hj
      · exact h.classified n j hj
      · obtain ⟨hn, rfl⟩ : n = (tokensOf items).length ∧ i = j := by
          rw [List.getElem?_singleton] at hj
          split at hj
          · exact ⟨by omega, Option.some.inj hj⟩
          · cases hj
        have hsome : 0 < (controlsOf items).length := by omega
        rw [List.getLast?_eq_getElem?] at hlast
        refine ⟨s.ctrl, ?_, ?_⟩
        · rw [show n / 8 = (controlsOf items).length - 1 by omega]
          exact hlast
        · rw [show n % 8 = s.ctrlIdx.val by omega]
          exact hkind

/-- A micro-step keeps R78, whatever it consumes. -/
theorem blockInv_engineStep {p : Params} {items : List Instr} {s t : State} (hstep : EngineStep p s t)
    (h : BlockInv p items s) : BlockInv p (items ++ (nextItem p s).toList) t := by
  have hconsumed : Consumption p s t (nextItem p s) := consumption_engineStep hstep
  generalize nextItem p s = consumed at hconsumed ⊢
  cases hconsumed with
  | nothing hctrl hidx =>
    rw [Option.toList_none, List.append_nil]
    exact ⟨by rw [hctrl, hidx]; exact h.counted, h.classified⟩
  | control c hfull hctrl hidx => exact blockInv_control h hfull hctrl hidx
  | token i htoken hopen hkind hctrl hidx => exact blockInv_token h htoken hopen hkind hctrl hidx

/-- Nothing consumed, and a control byte expected. -/
theorem blockInv_launch (p : Params) (op : StartOperands) (s : State) : BlockInv p [] (launch op s) :=
  ⟨.inl ⟨rfl, rfl, rfl⟩, nofun⟩

/-- A run keeps R78, the items of the run added to those consumed before it. -/
theorem blockInv_engineRun {p : Params} {k : Nat} {items : List Instr} {s u : State}
    (h : BlockInv p items s) (hrun : engineRun p k s = .next u) :
    BlockInv p (items ++ itemsRun p k s) u := by
  induction k generalizing items s with
  | zero =>
    cases hrun
    simpa [itemsRun] using h
  | succ k ih =>
    simp only [engineRun, itemsRun] at hrun ⊢
    cases hturn : engineTurn p s with
    | next t =>
      simp only [hturn] at hrun ⊢
      rw [← List.append_assoc]
      exact ih (blockInv_engineStep (engineTurn_cases hturn) h) hrun
    | fault f => simp [hturn] at hrun
    | refused r => simp [hturn] at hrun

/-- Settles O44 (R78, R74): START meets `BlockInv` with nothing consumed, and every micro-step keeps it. -/
theorem tokensAreClassifiedByTheirControlByte : Obligations.TokensAreClassifiedByTheirControlByte := by
  intro p op s t u k hbegin hrun _
  obtain ⟨-, -, rfl⟩ := beginsCall_iff.1 hbegin
  have h : BlockInv p (itemsRun p k (launch op s)) u := blockInv_engineRun (blockInv_launch p op s) hrun
  exact ⟨h.counted, h.classified⟩

end Sys2Proof.Machine

/-! The family of 41_literal.md: what LIT writes and what it leaves. `literalTaken_effect` says it once, for
the item handed to its meaning and for the engine's turn. -/

namespace Sys2Proof.Machine

/-- The whole of OUT after a write. -/
theorem Memory.read_write (m : Memory) (i j : Nat) (v : Byte) :
    (Memory.write m i v).read j = if j = i then some v else m.read j := by
  split_ifs with h
  · rw [h, Memory.read_write_same]
  · exact Memory.read_write_other m v h

/-- The selector of LIT, written out (30_encoding.md R60). -/
theorem selected_lit_of_flag {p : Params} {s : State} (hrun : s.phase = .run) (hrem : s.copyRem = 0)
    (hlen : 0 < s.cmpLen) (hout : s.outPos < s.tgtLen) (hin : s.inPos < s.cmpLen)
    (hidx : s.ctrlIdx.val < 8) (hflag : flag p s.ctrl s.ctrlIdx.val ≠ p.refFlag) :
    selected p .lit s = true :=
  selected_lit_iff.2 ⟨itemWanted_iff.2 ⟨hrun, hrem, hlen, hout, hin⟩, hidx,
    Bool.eq_false_iff.2 (mt nextIsRef_iff.1 hflag)⟩

/-- A LIT inside a block writes its byte at `OUT_POS` alone, moves both cursors and `CTRL_IDX` by 1, and
leaves the rest (R79). -/
theorem literalTaken_effect (v : Byte) {s : State} (hidx : s.ctrlIdx.val < 8) :
    let t := literalTaken v s
    (∀ j, t.outMem.read j = if j = s.outPos then some v else s.outMem.read j) ∧
      t.inPos = s.inPos + 1 ∧ t.outPos = s.outPos + 1 ∧ t.ctrlIdx.val = s.ctrlIdx.val + 1 ∧
      t = { s with outMem := t.outMem, inPos := t.inPos, outPos := t.outPos, ctrlIdx := t.ctrlIdx } :=
  ⟨fun j => Memory.read_write s.outMem s.outPos j v, rfl, rfl, ctrlIdx_succ_val hidx, rfl⟩

/-- Settles O15 (R79). -/
theorem litWritesOneByteAtTheCursor : Obligations.LitWritesOneByteAtTheCursor := by
  intro v s hrun hrem hlen hout hin hidx hflag
  have hexec : exec (.lit v) s = .next (literalTaken v s) := by
    rw [exec_eq_execWith]
    exact literal_next_iff.2 ⟨selected_lit_of_flag hrun hrem hlen hout hin hidx hflag, rfl⟩
  obtain ⟨hread, hrest⟩ := literalTaken_effect v hidx
  exact ⟨_, hexec, (hread _).trans (if_pos rfl), fun j hj => (hread j).trans (if_neg hj), hrest⟩

/-- Settles O16 (R79). -/
theorem engineCopiesALiteralByte : Obligations.EngineCopiesALiteralByte :=
  fun _ v _ hrun hrem hlen hout hin hidx hflag hread =>
    ⟨_, engineTurn_lit (selected_lit_of_flag hrun hrem hlen hout hin hidx hflag) hread,
      literalTaken_effect v hidx⟩

end Sys2Proof.Machine

/-! The family of 42_reference.md: the reference header step. `refFailure` has one lemma for each of its
checks, in their order; `refHeader_raise` and `refHeader_accept` turn what it answers into the next state;
`engineTurn_ref` brings the engine's turn to the same `refHeader`. -/

namespace Sys2Proof.Machine

/-! ### The extractor's two bit fields (R57, R82) -/

/-- The token of two bytes is the 16-bit word with the first byte above the second (R57). -/
theorem token_pair_eq_append (b0 b1 : Byte) : RefLayout.token [b0, b1] = (b0 ++ b1 : BitVec 16).toNat := by
  rw [token_pair, BitVec.toNat_append, ← Nat.shiftLeft_add_eq_or_of_lt b1.isLt, Nat.shiftLeft_eq,
    Nat.mul_comm]

/-- Settles O25 (R57, R82): the low field is a remainder; the high field is a quotient, and no bit of the token
lies above it. -/
theorem extractorReadsTheTwoFields : Obligations.ExtractorReadsTheTwoFields := by
  intro lay b0 b1
  have hhigh : RefLayout.token [b0, b1] / 2 ^ (16 - lay.matchBits) < 2 ^ lay.matchBits := by
    have hm := lay.matchBits_le
    rw [Nat.div_lt_iff_lt_mul (Nat.two_pow_pos _), ← pow_add, Nat.add_sub_cancel' (by omega)]
    exact token_pair_lt b0 b1
  rw [token_pair_eq_append] at hhigh
  rw [RefLayout.extract, token_pair_eq_append, BitVec.extractLsb'_toNat, BitVec.extractLsb'_toNat,
    Nat.shiftRight_zero, Nat.shiftRight_eq_div_pow, Nat.mod_eq_of_lt hhigh]

/-- Settles O26 (R57, R58): at `MATCH_BITS = 6` the distance field takes in the second byte and the low two bits
of the first, and the length field is the rest of the first. -/
theorem defaultExtractorByBytes : Obligations.DefaultExtractorByBytes := by
  intro b0 b1
  have hdist : (b0 ++ b1 : BitVec 16).extractLsb' 0 10 = (b0.extractLsb' 0 2 ++ b1 : BitVec 10) := by
    rw [← BitVec.extractLsb'_append_extractLsb'_eq_extractLsb' (len₁ := 8) (len₂ := 2)
        (Nat.zero_add 8).symm,
      BitVec.extractLsb'_append_eq_right, BitVec.extractLsb'_append_eq_of_le (Nat.le_refl 8)]
  have hlen : (b0 ++ b1 : BitVec 16).extractLsb' 10 6 = b0.extractLsb' 2 6 :=
    BitVec.extractLsb'_append_eq_of_le (by decide)
  rw [← hdist, ← hlen]
  exact extractorReadsTheTwoFields conventionalLayout b0 b1

/-! ### The checks of the header step -/

/-- The selector of REF, written out (30_encoding.md R60). -/
theorem selected_ref_of_flag {p : Params} {s : State} (hrun : s.phase = .run) (hrem : s.copyRem = 0)
    (hlen : 0 < s.cmpLen) (hout : s.outPos < s.tgtLen) (hin : s.inPos < s.cmpLen)
    (hidx : s.ctrlIdx.val < 8) (hflag : flag p s.ctrl s.ctrlIdx.val = p.refFlag) :
    selected p .ref s = true :=
  selected_ref_iff.2 ⟨itemWanted_iff.2 ⟨hrun, hrem, hlen, hout, hin⟩, hidx, nextIsRef_iff.2 hflag⟩

theorem refFailure_of_cut {p : Params} {s : State} (d l : Nat) (hcut : s.cmpLen - s.inPos < p.refBytes) :
    refFailure p d l s = some .oversizedToken := if_pos (decide_eq_true hcut)

theorem refFailure_of_fit {p : Params} {s : State} (d l : Nat) (hfit : p.refBytes ≤ s.cmpLen - s.inPos) :
    refFailure p d l s = if l = 0 ∨ d = 0 then some .invalidToken
      else if s.outPos < d then some .corruptReference else none := by
  rw [refFailure, tokenCut_eq_false.2 hfit, if_neg Bool.false_ne_true]

theorem refFailure_of_zero {p : Params} {d l : Nat} {s : State} (hfit : p.refBytes ≤ s.cmpLen - s.inPos)
    (hzero : l = 0 ∨ d = 0) : refFailure p d l s = some .invalidToken := by
  rw [refFailure_of_fit d l hfit, if_pos hzero]

theorem refFailure_of_far {p : Params} {d l : Nat} {s : State} (hfit : p.refBytes ≤ s.cmpLen - s.inPos)
    (hl : 1 ≤ l) (hfar : s.outPos < d) : refFailure p d l s = some .corruptReference := by
  rw [refFailure_of_fit d l hfit, if_neg (by omega), if_pos hfar]

/-! ### The state after the header step -/

theorem refHeader_raise {p : Params} {d l : Nat} {s : State} {cause : Cause} (hsel : selected p .ref s = true)
    (hfail : refFailure p d l s = some cause) : refHeader p d l s = .next (raise cause s) :=
  refHeader_next_iff.2 ⟨hsel, .inl ⟨cause, hfail, rfl⟩⟩

theorem refHeader_accept {p : Params} {d l : Nat} {s : State} (hsel : selected p .ref s = true)
    (hfit : p.refBytes ≤ s.cmpLen - s.inPos) (hl : 1 ≤ l) (hd : 1 ≤ d) (hreach : d ≤ s.outPos) :
    refHeader p d l s = .next (refTaken p d l s) :=
  refHeader_next_iff.2 ⟨hsel, .inr ⟨refFailure_none_iff.2 ⟨hfit, hl, hd, hreach⟩, rfl⟩⟩

/-- An accepted REF arms the copy with at least one byte, moves past its token and to the next flag, and leaves
the rest (R81, R86). -/
theorem refTaken_effect (p : Params) (d : Nat) {l : Nat} {s : State} (hl : 1 ≤ l) (hout : s.outPos < s.tgtLen)
    (hidx : s.ctrlIdx.val < 8) :
    let t := refTaken p d l s
    t.copyDist = d ∧ t.copyRem = min l (s.tgtLen - s.outPos) ∧ 1 ≤ t.copyRem ∧
      t.inPos = s.inPos + p.refBytes ∧ t.ctrlIdx.val = s.ctrlIdx.val + 1 ∧
      t = { s with copyDist := t.copyDist, copyRem := t.copyRem, inPos := t.inPos, ctrlIdx := t.ctrlIdx } :=
  ⟨rfl, rfl, le_min hl (Nat.sub_pos_of_lt hout), rfl, ctrlIdx_succ_val hidx, rfl⟩

/-- Bytes of IN that lie below `CMP_LEN` are read in ascending order (R36, R38). -/
theorem inBytes_of_reads {s : State} {i n : Nat} {bytes : List Byte} (hfit : n ≤ s.cmpLen - i)
    (hlen : bytes.length = n) (hread : ∀ j < n, s.inMem.read (i + j) = bytes[j]?) :
    inBytes s i n = some bytes :=
  inBytes_eq_some.2 ⟨hlen, fun j hj => by rw [inRead, if_pos (by omega), hread j hj]⟩

/-! ### The header step -/

/-- Settles O18 (R81): the turn at a token that is all there is the header step with the operands extracted
from its bytes, and that takes the checks in their order. -/
theorem refHeaderStepFollowsItsPseudocode : Obligations.RefHeaderStepFollowsItsPseudocode := by
  intro p s bytes d l hrun hrem hlen hout hin hidx hflag
  have hsel : selected p .ref s = true := selected_ref_of_flag hrun hrem hlen hout hin hidx hflag
  refine ⟨engineTurn_oversized hsel, fun hfit hcount hread hdec => ?_⟩
  have hturn : engineTurn p s = refHeader p d l s := by
    rw [engineTurn_ref hsel hfit (inBytes_of_reads hfit hcount hread), hdec]
  rw [hturn]
  exact ⟨fun hzero => refHeader_raise hsel (refFailure_of_zero hfit hzero),
    fun hl _ hfar => refHeader_raise hsel (refFailure_of_far hfit hl hfar),
    fun hl hd hreach => ⟨_, refHeader_accept hsel hfit hl hd hreach, refTaken_effect p d hl hout hidx⟩⟩

/-- Settles O17 (R81, R86). -/
theorem refArmsTheCopySequencer : Obligations.RefArmsTheCopySequencer := by
  intro d l s hrun hrem hlen hout hin hidx hflag hfit hl hd hreach
  have hsel : selected params .ref s = true := selected_ref_of_flag hrun hrem hlen hout hin hidx hflag
  have hexec : exec (.ref d l) s = .next (refTaken params d l s) := by
    rw [exec_eq_execWith]
    exact refHeader_accept hsel hfit hl hd hreach
  exact ⟨_, hexec, refTaken_effect params d hl hout hidx⟩

/-- Settles O19 (R83 to R85): each clause is one check of the header step, and the state written out is what
`raise` leaves. -/
theorem rejectedRefRaisesTheFirstFailure : Obligations.RejectedRefRaisesTheFirstFailure := by
  intro p d l s hrun hrem hlen hout hin hidx hflag
  have hsel : selected p .ref s = true := selected_ref_of_flag hrun hrem hlen hout hin hidx hflag
  exact ⟨fun hcut => refHeader_raise hsel (refFailure_of_cut d l hcut),
    fun hfit hzero => refHeader_raise hsel (refFailure_of_zero hfit hzero),
    fun hfit hl hfar => refHeader_raise hsel (refFailure_of_far hfit hl hfar)⟩

/-- Settles O20 (R83): neither the selector of REF nor the count of the bytes left reads IN, so both hold
whatever IN holds. -/
theorem cutTokenRaisesOversizedUnread : Obligations.CutTokenRaisesOversizedUnread := by
  intro p s hsel hcut m
  have hsel' : selected p .ref { s with inMem := m } = true := hsel
  exact ⟨raise .oversizedToken { s with inMem := m }, engineTurn_oversized hsel' hcut, rfl, rfl⟩

end Sys2Proof.Machine

/-! The family of 43_copy.md: COPY. `byteCopied_effect` says what one byte does. A whole copy is taken in two
parts: the run leaves every copied byte equal to the byte `COPY_DIST` before it in the SAME memory
(`CopiedBack`, R88 and R89), and a memory with that property is periodic (`CopiedBack.periodic`, R90). -/

namespace Sys2Proof.Machine

/-- One byte copied writes OUT at `OUT_POS` alone, moves `OUT_POS` on and `COPY_REM` down by 1, and leaves the
rest (R88). -/
theorem byteCopied_effect (v : Byte) (s : State) :
    let t := byteCopied v s
    (∀ j, t.outMem.read j = if j = s.outPos then some v else s.outMem.read j) ∧
      t.outPos = s.outPos + 1 ∧ t.copyRem = s.copyRem - 1 ∧
      t = { s with outMem := t.outMem, outPos := t.outPos, copyRem := t.copyRem } :=
  ⟨fun j => Memory.read_write s.outMem s.outPos j v, rfl, rfl, rfl⟩

/-- Settles O21 (R88). -/
theorem copyMovesOneByte : Obligations.CopyMovesOneByte := by
  intro p s v hrun hrem hdist hreach hroom hread
  obtain ⟨hout, hrest⟩ := byteCopied_effect v s
  exact ⟨_, engineTurn_copy hrun hrem hroom hdist hreach hread, (hout _).trans (if_pos rfl),
    fun j hj => (hout j).trans (if_neg hj), hrest⟩

/-- `m'` is `m` below `pos`, and from there on `n` bytes each repeat the byte `d` before them in `m'` itself:
later bytes of a copy read what earlier ones wrote (R89, 20_memory.md R48). -/
structure CopiedBack (m m' : Memory) (pos d n : Nat) : Prop where
  below : ∀ i < pos, m'.read i = m.read i
  back : ∀ k < n, m'.read (pos + k) = m'.read (pos + k - d)

theorem CopiedBack.refl (m : Memory) (pos d : Nat) : CopiedBack m m pos d 0 := ⟨fun _ _ => rfl, nofun⟩

/-- A byte copied to `pos`, then `n` bytes after it. -/
theorem CopiedBack.cons {m m' : Memory} {pos d n : Nat} {v : Byte} (hd : 1 ≤ d) (hreach : d ≤ pos)
    (hread : m.read (pos - d) = some v) (h : CopiedBack (m.write pos v) m' (pos + 1) d n) :
    CopiedBack m m' pos d (n + 1) := by
  have hbelow : ∀ i < pos, m'.read i = m.read i := fun i hi =>
    (h.below i (by omega)).trans (Memory.read_write_other m v hi.ne)
  refine ⟨hbelow, fun k hk => ?_⟩
  cases k with
  | zero =>
    calc m'.read (pos + 0)
        = (m.write pos v).read pos := h.below pos (Nat.lt_succ_self pos)
      _ = m.read (pos - d) := (Memory.read_write_same m pos v).trans hread.symm
      _ = m'.read (pos + 0 - d) := (hbelow (pos - d) (by omega)).symm
  | succ k =>
    rw [show pos + (k + 1) = pos + 1 + k by omega]
    exact h.back k (by omega)

/-- Going back by `d` from byte `k` ends among the `d` bytes before `pos`, at `k mod d` (R90). -/
theorem CopiedBack.periodic {m m' : Memory} {pos d n : Nat} (hd : 1 ≤ d) (hreach : d ≤ pos)
    (h : CopiedBack m m' pos d n) {k : Nat} (hk : k < n) :
    m'.read (pos + k) = m.read (pos - d + k % d) := by
  induction k using Nat.strongRecOn with
  | ind k ih =>
    rw [h.back k hk]
    by_cases hfirst : k < d
    · rw [Nat.mod_eq_of_lt hfirst, ← Nat.sub_add_comm hreach]
      exact h.below _ (by omega)
    · rw [Nat.mod_eq_sub_mod (by omega), Nat.add_sub_assoc (by omega)]
      exact ih (k - d) (by omega) (by omega)

/-- The byte a copy reads next has been written in this call (R41, R88). -/
theorem copySource_written {s : State} (h : Inv s) (hdist : 1 ≤ s.copyDist) (hreach : s.copyDist ≤ s.outPos) :
    ∃ v, s.outMem.read (s.outPos - s.copyDist) = some v :=
  Option.isSome_iff_exists.1 ((Memory.read_isSome_of_keys h.written _).2 (by omega))

/-- A run whose first turn is known. -/
theorem engineRun_succ {p : Params} {k : Nat} {s t : State} (h : engineTurn p s = .next t) :
    engineRun p (k + 1) s = engineRun p k t := by
  rw [engineRun, h]

/-- Inside a copy `n` turns are `n` COPY steps, as long as there are bytes left to copy (R92). -/
theorem engineRun_copy {p : Params} {s : State} {n : Nat} (h : Inv s) (hrun : s.phase = .run)
    (hrem : n ≤ s.copyRem) :
    ∃ m, engineRun p n s =
        .next { s with outMem := m, outPos := s.outPos + n, copyRem := s.copyRem - n } ∧
      CopiedBack s.outMem m s.outPos s.copyDist n := by
  induction n generalizing s with
  | zero => exact ⟨s.outMem, rfl, .refl ..⟩
  | succ n ih =>
    have hpos : 0 < s.copyRem := by omega
    obtain ⟨hdist, hreach, hfit⟩ := h.copying.resolve_left hpos.ne'
    have hroom : s.outPos < s.tgtLen := by omega
    obtain ⟨v, hread⟩ := copySource_written h hdist hreach
    obtain ⟨m, hrest, hcopied⟩ := ih (inv_byteCopied (v := v) h hrun hpos hroom) hrun
      (Nat.le_sub_one_of_lt hrem)
    refine ⟨m, ?_, .cons hdist hreach hread hcopied⟩
    rw [engineRun_succ (engineTurn_copy hrun hpos hroom hdist hreach hread), hrest, byteCopied_outPos,
      byteCopied_copyRem, Nat.add_assoc, Nat.sub_sub, Nat.add_comm 1 n]
    rfl

/-- Settles O22 (R90). -/
theorem copyRepeatsTheLastBytesPeriodically : Obligations.CopyRepeatsTheLastBytesPeriodically := by
  intro p s h hrun hrem
  obtain ⟨hdist, hreach, -⟩ := h.copying.resolve_left hrem.ne'
  obtain ⟨m, hturns, hcopied⟩ := engineRun_copy (p := p) h hrun le_rfl
  exact ⟨_, hturns, rfl, Nat.sub_self _, hrun, fun _ => hcopied.periodic hdist hreach, hcopied.below, rfl⟩

end Sys2Proof.Machine

/-! The family of 44_host_commands.md: START and RELEASE, who owns OUT, how a call ends in success, and that a call
is stateless. `Ending` says once what a micro-step does to PHASE and the result registers; `SameCall` relates
two states that run the same call, and every micro-step of one is matched by one of the other. -/

namespace Sys2Proof.Machine

/-! ### Two calls of the same lengths and input bytes -/

/-- The states of two calls that differ only in what a call does not depend on: the handles and the result handle
made of one, the bytes of IN at or beyond `CMP_LEN`, and the moves to come (R106, 45_decode_function.md R109). -/
inductive SameCall (s : State) : State → Prop
  | mk (src dst data : Nat) (m : Memory) (ms : List Move)
      (hinput : ∀ i < s.cmpLen, s.inMem.read i = m.read i) (hdata : s.dstBase = dst → s.resData = data) :
      SameCall s { s with srcBase := src, dstBase := dst, resData := data, inMem := m, agenda := ms }

/-- Reading IN depends on its bytes below `CMP_LEN` alone (R36). -/
theorem SameCall.inBytes_eq_some {s t : State} (h : SameCall s t) {i n : Nat} {bytes : List Byte}
    (hbytes : inBytes s i n = some bytes) : inBytes t i n = some bytes := by
  obtain ⟨src, dst, data, m, ms, hinput, -⟩ := h
  obtain ⟨hlen, hread⟩ := Machine.inBytes_eq_some.1 hbytes
  refine Machine.inBytes_eq_some.2 ⟨hlen, fun j hj => ?_⟩
  rw [← hread j hj, inRead, inRead]
  exact ite_congr rfl (fun hi => (hinput _ hi).symm) fun _ => rfl

theorem SameCall.selected_eq {s t : State} (h : SameCall s t) (p : Params) (kind : ItemKind) :
    selected p kind t = selected p kind s := by
  obtain ⟨⟩ := h
  cases kind <;> rfl

/-- The byte at a selected item's cursor is the same in both calls. -/
theorem SameCall.read_inPos {p : Params} {kind : ItemKind} {s t : State} {b : Byte} (h : SameCall s t)
    (hsel : selected p kind s = true) (hread : s.inMem.read s.inPos = some b) :
    t.inMem.read t.inPos = some b := by
  obtain ⟨src, dst, data, m, ms, hinput, -⟩ := h
  obtain ⟨-, -, -, -, hin⟩ := itemWanted_iff.1 (itemWanted_of_selected hsel)
  exact (hinput _ hin).symm.trans hread

/-- A token cut by the end of the input, wherever dispatch has named a reference (R83). -/
theorem engineTurn_of_cut {p : Params} {s : State} (hd : dispatch p s = .item .ref)
    (hcut : s.cmpLen - s.inPos < p.refBytes) : engineTurn p s = .next (raise .oversizedToken s) := by
  have hf : fetchItem p .ref s = .oversized := fetchItem_oversized_iff.2 ⟨rfl, decide_eq_true hcut⟩
  simp [engineTurn, engineTurnBy, hd, hf]

/-- Each micro-step of one call is matched by the same micro-step of the other. -/
theorem SameCall.exists_engineTurn {p : Params} {s s' t : State} (h : SameCall s t) (hstep : EngineStep p s s') :
    ∃ t', engineTurn p t = .next t' ∧ SameCall s' t' := by
  have hselected : ∀ {kind}, selected p kind s = true → selected p kind t = true :=
    fun hsel => (h.selected_eq p _).trans hsel
  have hcursor : ∀ {kind b}, selected p kind s = true → s.inMem.read s.inPos = some b →
      t.inMem.read t.inPos = some b := h.read_inPos
  have hfetch : ∀ {i n bytes}, inBytes s i n = some bytes → inBytes t i n = some bytes := h.inBytes_eq_some
  obtain ⟨src, dst, data, m, ms, hinput, hdata⟩ := h
  cases hstep with
  | none hstop => exact ⟨_, engineTurn_none hstop, .mk src dst data m ms hinput hdata⟩
  | copy v hrun hrem hroom hdist hreach hread =>
    exact ⟨_, engineTurn_copy hrun hrem hroom hdist hreach hread, .mk src dst data m ms hinput hdata⟩
  | zeroLength hrun hrem hlen =>
    exact ⟨_, engineTurn_zeroLength hrun hrem hlen, .mk src dst dst m ms hinput id⟩
  | target hrun hrem hlen hout =>
    exact ⟨_, engineTurn_target hrun hrem hlen hout, .mk src dst dst m ms hinput id⟩
  | truncated hrun hrem hlen hout hin =>
    exact ⟨_, engineTurn_truncated hrun hrem hlen hout hin, .mk src dst 0 m ms hinput fun _ => rfl⟩
  | oversized hrun hrem hlen hout hin hidx href hcut =>
    exact ⟨_, engineTurn_of_cut (dispatch_ref hrun hrem hlen hout hin hidx href) hcut,
      .mk src dst 0 m ms hinput fun _ => rfl⟩
  | ctrl c hsel hread =>
    exact ⟨_, engineTurn_ctrl (hselected hsel) (hcursor hsel hread), .mk src dst data m ms hinput hdata⟩
  | lit v hsel hread =>
    exact ⟨_, engineTurn_lit (hselected hsel) (hcursor hsel hread), .mk src dst data m ms hinput hdata⟩
  | refFail bytes cause hsel hfit hbytes hfail =>
    exact ⟨_, (engineTurn_ref (hselected hsel) hfit (hfetch hbytes)).trans
      (refHeader_raise (hselected hsel) hfail), .mk src dst 0 m ms hinput fun _ => rfl⟩
  | ref bytes hsel hfit hbytes hlength hdist hreach =>
    exact ⟨_, (engineTurn_ref (hselected hsel) hfit (hfetch hbytes)).trans
      (refHeader_accept (hselected hsel) hfit hlength hdist hreach), .mk src dst data m ms hinput hdata⟩

/-- A run of at least one turn, taken apart at the first. -/
theorem engineRun_succ_next {p : Params} {k : Nat} {s u : State} (h : engineRun p (k + 1) s = .next u) :
    ∃ t, engineTurn p s = .next t ∧ engineRun p k t = .next u := by
  cases hturn : engineTurn p s with
  | next t => exact ⟨t, rfl, (engineRun_succ hturn).symm.trans h⟩
  | fault f => simp [engineRun, hturn] at h
  | refused r => simp [engineRun, hturn] at h

/-- The two calls stay the same call for any number of turns. -/
theorem SameCall.exists_engineRun {p : Params} {k : Nat} {s t u : State} (h : SameCall s t)
    (hrun : engineRun p k s = .next u) : ∃ v, engineRun p k t = .next v ∧ SameCall u v := by
  induction k generalizing s t with
  | zero =>
    cases hrun
    exact ⟨t, rfl, h⟩
  | succ k ih =>
    obtain ⟨s', hturn, hrest⟩ := engineRun_succ_next hrun
    obtain ⟨t', hturn', h'⟩ := h.exists_engineTurn (engineTurn_cases hturn)
    rw [engineRun_succ hturn']
    exact ih h' hrest

/-- No run of the engine writes an operand register (20_memory.md R37). -/
theorem operands_engineRun {p : Params} {k : Nat} {s u : State} (hrun : engineRun p k s = .next u) :
    operands u = operands s := by
  induction k generalizing s with
  | zero =>
    cases hrun
    rfl
  | succ k ih =>
    obtain ⟨t, hturn, hrest⟩ := engineRun_succ_next hrun
    exact (ih hrest).trans (operands_engineStep (engineTurn_cases hturn)).1

/-- Two launches of the same lengths over the same input bytes, whatever was before them (R94). -/
theorem sameCall_launch {op₁ op₂ : StartOperands} {s₁ s₂ : State} (hcmp : op₁.cmpLen = op₂.cmpLen)
    (htgt : op₁.tgtLen = op₂.tgtLen) (hinput : ∀ i < op₁.cmpLen, s₁.inMem.read i = s₂.inMem.read i) :
    SameCall (launch op₁ s₁) (launch op₂ s₂) := by
  have hsame : launch op₂ s₂ = { launch op₁ s₁ with
      srcBase := op₂.srcBase, dstBase := op₂.dstBase, resData := 0,
      inMem := s₂.inMem, agenda := s₂.agenda } := by
    simp only [launch, hcmp, htgt]
  rw [hsame]
  exact .mk _ _ _ _ _ hinput fun _ => rfl

/-- What the host sees of the same call, but for the result handle. -/
theorem SameCall.hostReadReg_eq {s t : State} (h : SameCall s t) {r : Reg} (hr : r ≠ .resData) :
    hostReadReg s r = hostReadReg t r := by
  obtain ⟨⟩ := h
  cases r with
  | resData => exact absurd rfl hr
  | _ => rfl

theorem SameCall.hostReadOut_eq {s t : State} (h : SameCall s t) (i : Nat) :
    hostReadOut s i = hostReadOut t i := by
  obtain ⟨⟩ := h
  rfl

theorem SameCall.resData_eq {s t : State} (h : SameCall s t) (hdst : s.dstBase = t.dstBase) :
    s.resData = t.resData := by
  obtain ⟨src, dst, data, m, ms, -, hdata⟩ := h
  exact hdata hdst

/-- With the same output handle the host cannot tell the calls apart. -/
theorem SameCall.sameToHost {s t : State} (h : SameCall s t) (hdst : s.dstBase = t.dstBase) :
    SameToHost s t where
  regs := fun r => by
    by_cases hr : r = .resData
    · subst hr
      exact congrArg some (h.resData_eq hdst)
    · exact h.hostReadReg_eq hr
  bytes := h.hostReadOut_eq

/-- Settles O48 (R106, 45_decode_function.md R109, R120): the two launches give states of the same call, and they
stay so turn by turn. -/
theorem callsAreStateless : Obligations.CallsAreStateless := by
  intro p op₁ op₂ s₁ s₂ t₁ t₂ hbegin₁ hbegin₂ hcmp htgt hinput k u₁ hrun₁
  obtain ⟨-, -, rfl⟩ := beginsCall_iff.1 hbegin₁
  obtain ⟨-, -, rfl⟩ := beginsCall_iff.1 hbegin₂
  obtain ⟨u₂, hrun₂, hsame⟩ := (sameCall_launch hcmp htgt hinput).exists_engineRun hrun₁
  refine ⟨u₂, hrun₂, fun r => hsame.hostReadReg_eq, hsame.hostReadOut_eq, fun hdst => hsame.sameToHost ?_⟩
  calc u₁.dstBase
      = op₁.dstBase := congrArg StartOperands.dstBase (operands_engineRun hrun₁)
    _ = op₂.dstBase := hdst
    _ = u₂.dstBase := (congrArg StartOperands.dstBase (operands_engineRun hrun₂)).symm

/-! ### How a micro-step ends a call -/

/-- What a micro-step does to PHASE and the result registers: nothing, `finish_success(n)` with the size of R97, or
a failure (40_sequencer.md R70, R71, R75; 60_exceptions.md R126). -/
inductive Ending (s : State) : State → Prop
  | goesOn {t : State} (hphase : t.phase = s.phase) (hsuccess : t.resSuccess = s.resSuccess) : Ending s t
  | success (n : Nat) (hrun : s.phase = .run)
      (hsize : (s.cmpLen ≠ 0 ∧ n = s.tgtLen ∧ s.outPos = s.tgtLen) ∨ (s.cmpLen = 0 ∧ n = 0)) :
      Ending s (finishSuccess n s)
  | failure (cause : Cause) (hrun : s.phase = .run) : Ending s (raise cause s)

theorem ending_engineStep {p : Params} {s t : State} (hstep : EngineStep p s t) : Ending s t := by
  cases hstep with
  | zeroLength hrun _ hlen => exact .success 0 hrun (.inr ⟨hlen, rfl⟩)
  | target hrun _ hlen hout => exact .success s.tgtLen hrun (.inl ⟨hlen, rfl, hout⟩)
  | truncated hrun => exact .failure .truncatedInput hrun
  | oversized hrun => exact .failure .oversizedToken hrun
  | refFail bytes cause hsel =>
    exact .failure cause (itemWanted_iff.1 (itemWanted_of_selected hsel)).1
  | _ => exact .goesOn rfl rfl

/-! ### Who owns OUT (R101) -/

theorem outOwner_congr {s t : State} (hphase : t.phase = s.phase) (hsuccess : t.resSuccess = s.resSuccess) :
    outOwner t = outOwner s := by
  rw [outOwner, outOwner, hphase, hsuccess]

@[simp] theorem outOwner_takeMove (s : State) : outOwner (takeMove s) = outOwner s := rfl

theorem outOwner_of_run {s : State} (h : s.phase = .run) : outOwner s = .engine := by
  rw [outOwner, h]

theorem outOwner_of_live {s : State} (h : liveResult s = true) : outOwner s = .hostResult := by
  obtain ⟨hdone, hsuccess⟩ := liveResult_iff.1 h
  simp [outOwner, hdone, hsuccess]

/-- What a move does to the owner of OUT. -/
inductive OwnerChange (s : State) : Move → State → Prop
  | keeps {m : Move} {t : State} (hsame : outOwner t = outOwner s) : OwnerChange s m t
  | launched (op : StartOperands) : OwnerChange s (.start op) (launch op s)
  | succeeded {t : State} (hfrom : outOwner s = .engine) (hdone : t.phase = .done)
      (hsuccess : t.resSuccess = true) : OwnerChange s .engine t
  | failed {t : State} (hfrom : outOwner s = .engine) (hto : outOwner t = .hostFree)
      (hdone : t.phase = .done) (herr : t.err ≠ none) : OwnerChange s .engine t
  | released {t : State} (hfrom : outOwner s = .hostResult) (hto : outOwner t = .hostFree) :
      OwnerChange s .release t
  | reset {t : State} (hto : outOwner t = .hostFree) : OwnerChange s .reset t

theorem ownerChange_moveStep {p : Params} {m : Move} {s t : State} (hstep : MoveStep p s m t) :
    OwnerChange s m t := by
  cases hstep with
  | engine hturn =>
    cases ending_engineStep hturn with
    | goesOn hphase hsuccess => exact .keeps (outOwner_congr hphase hsuccess)
    | success n hrun => exact .succeeded (outOwner_of_run hrun) rfl rfl
    | failure cause hrun => exact .failed (outOwner_of_run hrun) rfl rfl nofun
  | start op => exact .launched op
  | release hlive => exact .released (outOwner_of_live hlive) rfl
  | reset => exact .reset rfl
  | _ => exact .keeps rfl

theorem agenda_of_nextMove_engine {s : State} (h : nextMove s = .engine) :
    s.agenda = [] ∨ ∃ ms, s.agenda = .engine :: ms := by
  unfold nextMove at h
  cases ha : s.agenda with
  | nil => exact .inl rfl
  | cons m ms =>
    rw [ha, List.headD_cons] at h
    exact .inr ⟨ms, by rw [h]⟩

/-- A move that is not the engine's stands at the head of the agenda (log 7). -/
theorem agenda_of_nextMove {s : State} {m : Move} (h : nextMove s = m) (hm : m ≠ .engine) :
    s.agenda = m :: s.agenda.tail := by
  unfold nextMove at h
  cases ha : s.agenda with
  | nil => exact absurd (by rw [← h, ha, List.headD_nil]) hm
  | cons m' ms =>
    rw [ha, List.headD_cons] at h
    rw [h, List.tail_cons]

/-- Settles O9 (R101, 70_reset_and_hazards.md R139): each change of owner meets the one clause about it. -/
theorem ownershipOfOutChangesOnlyByRule : Obligations.OwnershipOfOutChangesOnlyByRule := by
  intro p s t hnext
  have hchange : OwnerChange (takeMove s) (nextMove s) t := ownerChange_moveStep (stepWith_moveStep hnext)
  generalize hm : nextMove s = m at hchange
  cases hchange with
  | keeps hsame =>
    rw [hsame, outOwner_takeMove]
    cases outOwner s <;> simp
  | launched op =>
    have hagenda : s.agenda = .start op :: s.agenda.tail := agenda_of_nextMove hm nofun
    exact ⟨fun _ _ => ⟨op, _, hagenda, rfl⟩, nofun, nofun, fun _ _ => .inl ⟨op, _, hagenda⟩, nofun⟩
  | succeeded hfrom hdone hsuccess =>
    rw [outOwner_takeMove] at hfrom
    have hto : outOwner t = .hostResult := outOwner_of_live (liveResult_iff.2 ⟨hdone, hsuccess⟩)
    rw [hfrom, hto]
    exact ⟨nofun, fun _ _ => ⟨hsuccess, hdone, agenda_of_nextMove_engine hm⟩, nofun, nofun, nofun⟩
  | failed hfrom hto hdone herr =>
    rw [outOwner_takeMove] at hfrom
    rw [hfrom, hto]
    exact ⟨nofun, nofun, fun _ _ => .inl ⟨herr, hdone, agenda_of_nextMove_engine hm⟩, nofun, nofun⟩
  | released hfrom hto =>
    rw [outOwner_takeMove] at hfrom
    rw [hfrom, hto]
    exact ⟨nofun, nofun, nofun, fun _ _ => .inr (.inl ⟨_, agenda_of_nextMove hm nofun⟩), nofun⟩
  | reset hto =>
    have hagenda : s.agenda = .reset :: s.agenda.tail := agenda_of_nextMove hm nofun
    rw [hto]
    exact ⟨nofun, nofun, fun _ _ => .inr ⟨_, hagenda⟩, fun _ _ => .inr (.inr ⟨_, hagenda⟩), nofun⟩

/-! ### What a success reports (R97, R99, R100) -/

/-- A call on an empty input has written nothing (R70, R140). -/
theorem outPos_of_zeroLength {s : State} (h : Inv s) (hlen : s.cmpLen = 0) : s.outPos = 0 :=
  (h.fresh (Nat.le_zero.1 (hlen ▸ h.inPos_le))).1

/-- After `finish_success(n)` the host reads OUT below `n` and nothing else (R100). -/
theorem hostReadOut_finishSuccess (n : Nat) (s : State) (i : Nat) :
    hostReadOut (finishSuccess n s) i = if i < n then s.outMem.read i else none := by
  simp [hostReadOut, hostMayAccessOut_iff]

/-- Settles O36 (R97, R99, 20_memory.md R49): the turn is `finish_success(n)` with `n` at most `OUT_POS`, and
below `OUT_POS` every byte has been written. -/
theorem successReportsTheWrittenBytes : Obligations.SuccessReportsTheWrittenBytes := by
  intro p s t h hrun hturn hdone hsuccess
  cases ending_engineStep (engineTurn_cases hturn) with
  | goesOn hphase => exact nomatch hdone.symm.trans (hphase.trans hrun)
  | failure cause => cases hsuccess
  | success n _ hsize =>
    have hwritten : n ≤ s.outPos := by omega
    have hreported : (s.cmpLen ≠ 0 ∧ n = s.tgtLen) ∨ (s.cmpLen = 0 ∧ n = 0) :=
      hsize.imp_left fun ⟨hlen, hn, _⟩ => ⟨hlen, hn⟩
    refine ⟨hreported, rfl, rfl, rfl, fun i => ⟨fun hi => ?_, fun hi => ?_⟩, fun hlen i => ?_⟩
    · obtain ⟨v, hv⟩ := Option.isSome_iff_exists.1
        ((Memory.read_isSome_of_keys h.written i).2 (hi.trans_le hwritten))
      exact ⟨v, hv, (hostReadOut_finishSuccess n s i).trans ((if_pos hi).trans hv)⟩
    · exact (hostReadOut_finishSuccess n s i).trans (if_neg hi.not_gt)
    · have hnone : ¬ (s.outMem.read i).isSome = true := by
        rw [Memory.read_isSome_of_keys h.written, outPos_of_zeroLength h hlen]
        exact i.not_lt_zero
      exact Option.not_isSome_iff_eq_none.1 hnone

/-! ### START and RELEASE -/

/-- An effective START (R94): the launch premises of R96 hold, so the next state is the launched one. -/
theorem stepWith_start {p : Params} {s : State} {op : StartOperands} {ms : List Move}
    (hnext : s.agenda = .start op :: ms) (hstop : s.phase ≠ .run)
    (hpresent : ∀ i < op.cmpLen, (s.inMem.read i).isSome = true)
    (hapart : ∀ i < op.cmpLen, ∀ j < op.tgtLen, p.locate op.srcBase i ≠ p.locate op.dstBase j) :
    stepWith p s = .next (launch op { s with agenda := ms }) := by
  rw [stepWith_cons hnext]
  exact (start_next_iff (s := { s with agenda := ms }) hstop).2
    ⟨launchRefusal_none_iff.2 ⟨hpresent, hapart⟩, rfl⟩

/-- Settles O2 (R94, R105): `launch` writes every register, and lists no byte of OUT. -/
theorem startWritesEveryRegister : Obligations.StartWritesEveryRegister :=
  fun _ _ _ _ hnext hstop hpresent hapart =>
    ⟨_, stepWith_start hnext hstop hpresent hapart, rfl, rfl, rfl, rfl, rfl, rfl, rfl, rfl, rfl, rfl, rfl, rfl,
      rfl, rfl, rfl, rfl, rfl, nofun⟩

theorem stepWith_release {p : Params} {s : State} {ms : List Move} (hnext : s.agenda = .release :: ms) :
    stepWith p s = .next (release { s with agenda := ms }) := stepWith_cons hnext

/-- RELEASE without a live result uses up the move and does nothing else (R103). -/
theorem stepWith_release_of_not_live {p : Params} {s : State} {ms : List Move}
    (hnext : s.agenda = .release :: ms) (hnone : liveResult s = false) :
    stepWith p s = .next { s with agenda := ms } := by
  have hnone' : liveResult { s with agenda := ms } = false := hnone
  rw [stepWith_release hnext, release_other hnone']

/-- Settles O4 (R95, R103, 60_exceptions.md R133): a running engine holds no live result. -/
theorem hostCommandsAreIgnoredDuringACall : Obligations.HostCommandsAreIgnoredDuringACall := by
  refine fun p s => ⟨fun hrun => ⟨fun op ms hnext => ?_, fun ms hnext => ?_⟩, engineTurn_none⟩
  · rw [stepWith_cons hnext]
    exact start_of_run hrun
  · exact stepWith_release_of_not_live hnext (by simp [liveResult, hrun])

/-- The image of RES_SUCCESS is 0x01 for `true` alone (10_state.md R21). -/
theorem successByte_eq_one_iff {s : State} : successByte s = 0x01 ↔ s.resSuccess = true := by
  unfold successByte
  cases s.resSuccess <;> decide

/-- Settles O5 (R102): the state written out is what `dropResult` leaves. -/
theorem releaseDropsALiveResult : Obligations.ReleaseDropsALiveResult := by
  intro p s ms hnext hdone hbyte
  have hlive : liveResult { s with agenda := ms } = true :=
    liveResult_iff.2 ⟨hdone, successByte_eq_one_iff.1 hbyte⟩
  rw [stepWith_release hnext, release_live hlive]
  rfl

/-- Settles O6 (R103). -/
theorem releaseElsewhereIsANoOp : Obligations.ReleaseElsewhereIsANoOp := by
  intro p s ms hnext hnot
  rw [successByte_eq_one_iff, ← liveResult_iff, Bool.not_eq_true] at hnot
  exact stepWith_release_of_not_live hnext hnot

end Sys2Proof.Machine

/-! The family of 45_decode_function.md, the engine: a running engine always moves (`exists_engineTurn`), what is left
of a call shrinks with every micro-step (`work`), and so every call ends, safely. The invariant speaks of a canonical
IN, which a START need not find: `exists_canonicalLaunch` gives each call one that runs alike (`SameCall`). -/

namespace Sys2Proof.Machine

/-! ### A running engine always moves (R110, R111) -/

/-- A selected item finds the engine in RUN, at a token boundary (30_encoding.md R60). -/
theorem boundary_of_selected {p : Params} {kind : ItemKind} {s : State} (hsel : selected p kind s = true) :
    s.phase = .run ∧ s.copyRem = 0 := by
  obtain ⟨hrun, hrem, -⟩ := itemWanted_iff.1 (itemWanted_of_selected hsel)
  exact ⟨hrun, hrem⟩

/-- A selected item finds room in OUT and a byte left in IN (30_encoding.md R60). -/
theorem room_of_selected {p : Params} {kind : ItemKind} {s : State} (hsel : selected p kind s = true) :
    s.outPos < s.tgtLen ∧ s.inPos < s.cmpLen := by
  obtain ⟨-, -, -, hroom, hleft⟩ := itemWanted_iff.1 (itemWanted_of_selected hsel)
  exact ⟨hroom, hleft⟩

/-- Bytes of IN that were supplied can be read (R36, R96 a). -/
theorem exists_inBytes {s : State} {i n : Nat} (hfit : n ≤ s.cmpLen - i)
    (hsupplied : ∀ j < s.cmpLen, (s.inMem.read j).isSome = true) : ∃ bytes, inBytes s i n = some bytes := by
  induction n generalizing i with
  | zero => exact ⟨[], rfl⟩
  | succ n ih =>
    obtain ⟨b, hb⟩ := Option.isSome_iff_exists.1 (hsupplied i (by omega))
    obtain ⟨bytes, hbytes⟩ := ih (i := i + 1) (by omega)
    exact ⟨b :: bytes, by simp [inBytes, inRead_eq_some.2 ⟨show i < s.cmpLen by omega, hb⟩, hbytes]⟩

/-- The turn at a selected item: its bytes were supplied, and a reference is cut short, rejected or taken. -/
theorem exists_engineTurn_of_selected {p : Params} {kind : ItemKind} {s : State} (h : Inv s)
    (hsel : selected p kind s = true) : ∃ t, engineTurn p s = .next t := by
  obtain ⟨hrun, -⟩ := boundary_of_selected hsel
  obtain ⟨-, hin⟩ := room_of_selected hsel
  obtain ⟨b, hb⟩ := Option.isSome_iff_exists.1 (h.supplied hrun s.inPos hin)
  cases kind with
  | ctrl => exact ⟨_, engineTurn_ctrl hsel hb⟩
  | lit => exact ⟨_, engineTurn_lit hsel hb⟩
  | ref =>
    by_cases hfit : p.refBytes ≤ s.cmpLen - s.inPos
    · obtain ⟨bytes, hbytes⟩ := exists_inBytes hfit (h.supplied hrun)
      rw [engineTurn_ref hsel hfit hbytes]
      cases hfail : refFailure p (p.refDecode bytes).1 (p.refDecode bytes).2 s with
      | some cause => exact ⟨_, refHeader_raise hsel hfail⟩
      | none => exact ⟨_, refHeader_next_iff.2 ⟨hsel, .inr ⟨hfail, rfl⟩⟩⟩
    · exact ⟨_, engineTurn_oversized hsel (Nat.lt_of_not_le hfit)⟩

/-- Dispatch names COPY only in a running call with bytes left to copy (R69). -/
theorem copying_of_dispatch {p : Params} {s : State} (hd : dispatch p s = .copy) :
    s.phase = .run ∧ 0 < s.copyRem := by
  unfold dispatch at hd
  split_ifs at hd with hstop hrem
  exact ⟨not_not.1 hstop, hrem⟩

/-- From a state of the invariant the engine's turn is answered by a next state, whatever dispatch names (R69). -/
theorem exists_engineTurn {s : State} (p : Params) (h : Inv s) : ∃ t, engineTurn p s = .next t := by
  cases hd : dispatch p s with
  | copy =>
    obtain ⟨hrun, hrem⟩ := copying_of_dispatch hd
    obtain ⟨hdist, hreach, hfit⟩ := h.copying.resolve_left hrem.ne'
    obtain ⟨v, hv⟩ := copySource_written h hdist hreach
    exact ⟨_, engineTurn_copy hrun hrem (by omega) hdist hreach hv⟩
  | item kind => exact exists_engineTurn_of_selected h ((dispatch_item_iff h.inPos_le h.outPos_le).1 hd)
  | none | finish | truncated => simp [engineTurn, engineTurnBy, hd]

/-- What is left of a call: the input bytes to consume, the output bytes to write, and the step that ends it. -/
def work (s : State) : Nat :=
  (s.cmpLen - s.inPos) + (s.tgtLen - s.outPos) + if s.phase = .run then 1 else 0

theorem work_pos {s : State} (hrun : s.phase = .run) : 0 < work s := by
  simp [work, hrun]

/-- Every micro-step of a running engine consumes a byte, writes a byte, or ends the call (R110). -/
theorem work_engineStep {p : Params} {s t : State} (hstep : EngineStep p s t) (hrun : s.phase = .run) :
    work t < work s := by
  have hbytes := p.refBytes_pos
  cases hstep with
  | none hstop => exact absurd hrun hstop
  | copy v _ _ hroom =>
    simp [work, hrun]
    omega
  | ctrl c hsel | lit v hsel | ref bytes hsel =>
    obtain ⟨hroom, hleft⟩ := room_of_selected hsel
    simp [work, hrun]
    omega
  | zeroLength | target | truncated | oversized | refFail => simp [work, hrun]

/-- Settles O39 (R110, R111, 70_reset_and_hazards.md R149): the turn is answered, and leaves less to do. -/
theorem aRunningEngineAlwaysMoves : Obligations.ARunningEngineAlwaysMoves := by
  intro p s h hrun
  obtain ⟨t, hturn⟩ := exists_engineTurn p h
  exact ⟨t, hturn, fun hsame => (work_engineStep (engineTurn_cases hturn) hrun).ne (congrArg work hsame)⟩

/-! ### Every call is safe and ends -/

/-- The engine meets no fault in any number of turns from a state of the invariant (R111). -/
theorem engineSafe {s : State} (p : Params) (k : Nat) (h : Inv s) : EngineSafe p k s := by
  induction k generalizing s with
  | zero => exact ⟨s, rfl⟩
  | succ k ih =>
    obtain ⟨t, hturn⟩ := exists_engineTurn p h
    obtain ⟨u, hrest⟩ := ih (inv_engineStep (engineTurn_cases hturn) h)
    exact ⟨u, (engineRun_succ hturn).trans hrest⟩

/-- After `k` turns the call has ended, and not before. -/
def EndsAfter (p : Params) (k : Nat) (s : State) : Prop :=
  (∃ u, engineRun p k s = .next u ∧ u.phase = .done) ∧
    ∀ j < k, ∃ v, engineRun p j s = .next v ∧ v.phase = .run

/-- One more turn of a running engine before a call that ends. -/
theorem EndsAfter.succ {p : Params} {k : Nat} {s t : State} (hrun : s.phase = .run)
    (hturn : engineTurn p s = .next t) (h : EndsAfter p k t) : EndsAfter p (k + 1) s := by
  obtain ⟨⟨u, hend, hdone⟩, hbefore⟩ := h
  refine ⟨⟨u, (engineRun_succ hturn).trans hend, hdone⟩, fun j hj => ?_⟩
  cases j with
  | zero => exact ⟨s, rfl, hrun⟩
  | succ j =>
    rw [engineRun_succ hturn]
    exact hbefore j (by omega)

/-- A micro-step of a running engine goes on running or ends the call (R70, R71, R75, R126). -/
theorem phase_engineStep {p : Params} {s t : State} (hstep : EngineStep p s t) (hrun : s.phase = .run) :
    t.phase = .run ∨ t.phase = .done := by
  cases ending_engineStep hstep with
  | goesOn hphase => exact .inl (hphase.trans hrun)
  | success | failure => exact .inr rfl

/-- A running engine ends its call within the work that is left (R110). -/
theorem exists_endsAfter {p : Params} {s : State} (h : Inv s) (hrun : s.phase = .run) :
    ∃ k ≤ work s, EndsAfter p k s := by
  induction hwork : work s using Nat.strongRecOn generalizing s with
  | ind n ih =>
    subst hwork
    obtain ⟨t, hturn⟩ := exists_engineTurn p h
    have hstep : EngineStep p s t := engineTurn_cases hturn
    have hless : work t < work s := work_engineStep hstep hrun
    obtain hrun' | hdone := phase_engineStep hstep hrun
    · obtain ⟨k, hk, hend⟩ := ih (work t) hless (inv_engineStep hstep h) hrun' rfl
      exact ⟨k + 1, by omega, hend.succ hrun hturn⟩
    · exact ⟨1, work_pos hrun, EndsAfter.succ (k := 0) hrun hturn ⟨⟨t, rfl, hdone⟩, nofun⟩⟩

/-- The first `n` bytes of IN in canonical form. -/
def canonicalInput (s : State) (n : Nat) : Memory :=
  Memory.ofBytes ((List.range n).map fun i => (s.inMem.read i).getD 0)

theorem read_canonicalInput {s : State} {n i : Nat} (hi : i < n) (hsupplied : (s.inMem.read i).isSome = true) :
    (canonicalInput s n).read i = s.inMem.read i := by
  obtain ⟨b, hb⟩ := Option.isSome_iff_exists.1 hsupplied
  simp [canonicalInput, hi, hb]

/-- A launch whose input is supplied runs as one from a canonical IN of the same bytes does (R106). -/
theorem exists_canonicalLaunch {op : StartOperands} {s : State}
    (hsupplied : ∀ i < op.cmpLen, (s.inMem.read i).isSome = true) :
    ∃ s', Inv (launch op s') ∧ SameCall (launch op s') (launch op s) := by
  have hsame : ∀ i < op.cmpLen, (canonicalInput s op.cmpLen).read i = s.inMem.read i := fun i hi =>
    read_canonicalInput hi (hsupplied i hi)
  exact ⟨{ s with inMem := canonicalInput s op.cmpLen },
    inv_launch (Memory.ofBytes_wf _) fun i hi => (congrArg Option.isSome (hsame i hi)).trans (hsupplied i hi),
    sameCall_launch rfl rfl hsame⟩

/-- A run of one call is matched by the other, phase by phase. -/
theorem SameCall.exists_engineRun_phase {p : Params} {k : Nat} {s t u : State} {ph : Phase} (h : SameCall s t)
    (hrun : engineRun p k s = .next u ∧ u.phase = ph) : ∃ v, engineRun p k t = .next v ∧ v.phase = ph := by
  obtain ⟨v, hv, hsame⟩ := h.exists_engineRun hrun.1
  obtain ⟨⟩ := hsame
  exact ⟨_, hv, hrun.2⟩

theorem SameCall.endsAfter {p : Params} {k : Nat} {s t : State} (h : SameCall s t) (hend : EndsAfter p k s) :
    EndsAfter p k t :=
  ⟨hend.1.elim fun _ => h.exists_engineRun_phase,
    fun j hj => (hend.2 j hj).elim fun _ => h.exists_engineRun_phase⟩

/-- Every launched call ends within the bound of R110. -/
theorem exists_endsAfter_launch {p : Params} {op : StartOperands} {s : State}
    (hlaunch : launchRefusal p s op = none) :
    ∃ k ≤ op.cmpLen + op.tgtLen + 1, EndsAfter p k (launch op s) := by
  obtain ⟨s', hinv, hsame⟩ := exists_canonicalLaunch (launchRefusal_none_iff.1 hlaunch).1
  obtain ⟨k, hk, hend⟩ := exists_endsAfter (p := p) hinv rfl
  exact ⟨k, hk, hsame.endsAfter hend⟩

/-- Settles O45 (R110): a call begins with `CMP_LEN + TGT_LEN + 1` to do, and every micro-step leaves less. -/
theorem everyCallEndsWithinTheBound : Obligations.EveryCallEndsWithinTheBound := by
  intro p op s t hbegin
  obtain ⟨-, hlaunch, rfl⟩ := beginsCall_iff.1 hbegin
  obtain ⟨k, hk, ⟨u, hend, hdone⟩, hbefore⟩ := exists_endsAfter_launch hlaunch
  exact ⟨k, hk, u, hend, hdone, hbefore⟩

/-- Settles O46 (R111): a call runs as one that begins in the invariant. -/
theorem everyCallIsSafe : Obligations.EveryCallIsSafe := by
  intro p op s t hbegin k
  obtain ⟨-, hlaunch, rfl⟩ := beginsCall_iff.1 hbegin
  obtain ⟨s', hinv, hsame⟩ := exists_canonicalLaunch (launchRefusal_none_iff.1 hlaunch).1
  obtain ⟨u, hrun⟩ := engineSafe p k hinv
  exact (hsame.exists_engineRun hrun).imp fun _ => And.left

end Sys2Proof.Machine

/-! The family of 45_decode_function.md, the function: `Decoding` is the loop of R107 as a relation, one constructor for
each way a pass can go, and `decodeRun_eq_iff` says that it is `Decode`. A statement about two calls of `Decode` is then
an induction over the passes of the one that builds the passes of the other. -/

namespace Sys2Proof.Machine

/-! ### The loop as a relation -/

/-- The loop is at an item: the target is not reached, and there is input left. -/
structure ItemDue (c t ip : Nat) (out : List Byte) : Prop where
  room : out.length ≠ t
  left : ip < c

/-- The loop is at a reference whose bytes are all there and read as the pair `(d, l)`. -/
structure RefDue (p : Params) (input : List Byte) (c t ip idx : Nat) (ctrl : Byte) (out : List Byte) (d l : Nat) : Prop
    extends ItemDue c t ip out where
  inBlock : idx ≠ 8
  flagged : flag p ctrl idx = p.refFlag
  fits : p.refBytes ≤ c - ip
  pair : p.refDecode ((input.drop ip).take p.refBytes) = (d, l)

/-- The loop of R107 from `ip`, `idx`, `ctrl` and the bytes written so far ends as given. -/
inductive Decoding (p : Params) (input : List Byte) (c t : Nat) :
    (ip idx : Nat) → (ctrl : Byte) → (out : List Byte) → CallRun → Prop
  | target {ip idx ctrl out} (hout : out.length = t) : Decoding p input c t ip idx ctrl out ⟨.success out, ip⟩
  | truncated {ip idx ctrl out} (hout : out.length ≠ t) (hend : ip = c) :
      Decoding p input c t ip idx ctrl out ⟨.failure .truncatedInput, ip⟩
  | ctrl {ip idx ctrl out r} (b : Byte) (hdue : ItemDue c t ip out) (hread : input[ip]? = some b) (hidx : idx = 8)
      (rest : Decoding p input c t (ip + 1) 0 b out r) : Decoding p input c t ip idx ctrl out r
  | lit {ip idx ctrl out r} (b : Byte) (hdue : ItemDue c t ip out) (hread : input[ip]? = some b) (hidx : idx ≠ 8)
      (hflag : flag p ctrl idx ≠ p.refFlag)
      (rest : Decoding p input c t (ip + 1) (idx + 1) ctrl (out ++ [b]) r) :
      Decoding p input c t ip idx ctrl out r
  | oversized {ip idx ctrl out} (hdue : ItemDue c t ip out) (hidx : idx ≠ 8) (hflag : flag p ctrl idx = p.refFlag)
      (hcut : c - ip < p.refBytes) : Decoding p input c t ip idx ctrl out ⟨.failure .oversizedToken, ip⟩
  | invalid {ip idx ctrl out d l} (hdue : RefDue p input c t ip idx ctrl out d l) (hzero : l = 0 ∨ d = 0) :
      Decoding p input c t ip idx ctrl out ⟨.failure .invalidToken, ip⟩
  | corrupt {ip idx ctrl out d l} (hdue : RefDue p input c t ip idx ctrl out d l) (hl : 1 ≤ l) (hd : 1 ≤ d)
      (hfar : out.length < d) : Decoding p input c t ip idx ctrl out ⟨.failure .corruptReference, ip⟩
  | ref {ip idx ctrl out d l r} (hdue : RefDue p input c t ip idx ctrl out d l) (hl : 1 ≤ l) (hd : 1 ≤ d)
      (hreach : d ≤ out.length)
      (rest : Decoding p input c t (ip + p.refBytes) (idx + 1) ctrl
        (copyBytes (min l (t - out.length)) d out) r) : Decoding p input c t ip idx ctrl out r

section Loop

variable {p : Params} {input : List Byte} {c t fuel ip idx : Nat} {ctrl : Byte} {out : List Byte} {r : CallRun}

theorem decodeLoop_target (hout : out.length = t) :
    decodeLoop p input c t fuel ip idx ctrl out = ⟨.success out, ip⟩ := by
  cases fuel <;> simp [decodeLoop, hout]

theorem decodeLoop_truncated (hout : out.length ≠ t) (hend : ip = c) :
    decodeLoop p input c t fuel ip idx ctrl out = ⟨.failure .truncatedInput, ip⟩ := by
  cases fuel <;> simp [decodeLoop, hout, hend]

/-- A pass at an item: the tests after the first two, in their order (R107). -/
theorem decodeLoop_item {b : Byte} {d l : Nat} (hdue : ItemDue c t ip out) (hfuel : c - ip ≤ fuel)
    (hread : input[ip]? = some b) (hpair : p.refDecode ((input.drop ip).take p.refBytes) = (d, l)) :
    decodeLoop p input c t fuel ip idx ctrl out =
      if idx = 8 then decodeLoop p input c t (fuel - 1) (ip + 1) 0 b out
      else if flag p ctrl idx ≠ p.refFlag then
        decodeLoop p input c t (fuel - 1) (ip + 1) (idx + 1) ctrl (out ++ [b])
      else if c - ip < p.refBytes then ⟨.failure .oversizedToken, ip⟩
      else if l = 0 ∨ d = 0 then ⟨.failure .invalidToken, ip⟩
      else if out.length < d then ⟨.failure .corruptReference, ip⟩
      else decodeLoop p input c t (fuel - 1) (ip + p.refBytes) (idx + 1) ctrl
        (copyBytes (min l (t - out.length)) d out) := by
  obtain ⟨hroom, hleft⟩ := hdue
  obtain ⟨fuel, rfl⟩ := Nat.exists_eq_add_one.2 (show 0 < fuel by omega)
  simp [decodeLoop, hroom, hleft.ne, hread, hpair]

theorem ItemDue.exists_read (hdue : ItemDue c t ip out) (hc : c ≤ input.length) : ∃ b, input[ip]? = some b :=
  ⟨_, List.getElem?_eq_getElem (hdue.left.trans_le hc)⟩

/-- With fuel for the input that is left the loop runs its passes: the relation holds of what it answers. -/
theorem decoding_decodeLoop (hc : c ≤ input.length) (hip : ip ≤ c) (hfuel : c - ip ≤ fuel) :
    Decoding p input c t ip idx ctrl out (decodeLoop p input c t fuel ip idx ctrl out) := by
  have hbytes := p.refBytes_pos
  induction fuel using Nat.strongRecOn generalizing ip idx ctrl out with
  | ind fuel ih =>
    by_cases hout : out.length = t
    · exact decodeLoop_target hout ▸ .target hout
    obtain hend | hleft := hip.eq_or_lt
    · exact decodeLoop_truncated hout hend ▸ .truncated hout hend
    have hdue : ItemDue c t ip out := ⟨hout, hleft⟩
    obtain ⟨b, hread⟩ := hdue.exists_read hc
    obtain ⟨d, l, hpair⟩ : ∃ d l, p.refDecode ((input.drop ip).take p.refBytes) = (d, l) := ⟨_, _, rfl⟩
    rw [decodeLoop_item hdue hfuel hread hpair]
    split_ifs with hidx hflag hcut hzero hfar
    · exact .ctrl b hdue hread hidx (ih _ (by omega) (by omega) (by omega))
    · exact .lit b hdue hread hidx hflag (ih _ (by omega) (by omega) (by omega))
    · exact .oversized hdue hidx (not_not.1 hflag) hcut
    all_goals
      have href : RefDue p input c t ip idx ctrl out d l := ⟨hdue, hidx, not_not.1 hflag, by omega, hpair⟩
    · exact .invalid href hzero
    · exact .corrupt href (by omega) (by omega) hfar
    · exact .ref href (by omega) (by omega) (by omega) (ih _ (by omega) (by omega) (by omega))

/-- The passes determine what the loop answers, with any fuel that suffices. -/
theorem Decoding.decodeLoop_eq (h : Decoding p input c t ip idx ctrl out r) (hc : c ≤ input.length)
    (hfuel : c - ip ≤ fuel) : decodeLoop p input c t fuel ip idx ctrl out = r := by
  have hbytes := p.refBytes_pos
  induction h generalizing fuel with
  | target hout => exact decodeLoop_target hout
  | truncated hout hend => exact decodeLoop_truncated hout hend
  | ctrl b hdue hread hidx _ ih =>
    rw [decodeLoop_item hdue hfuel hread rfl, if_pos hidx]
    exact ih (by omega)
  | lit b hdue hread hidx hflag _ ih =>
    rw [decodeLoop_item hdue hfuel hread rfl, if_neg hidx, if_pos hflag]
    exact ih (by omega)
  | oversized hdue hidx hflag hcut =>
    obtain ⟨b, hread⟩ := hdue.exists_read hc
    rw [decodeLoop_item hdue hfuel hread rfl, if_neg hidx, if_neg (not_not.2 hflag), if_pos hcut]
  | invalid hdue hzero =>
    obtain ⟨b, hread⟩ := hdue.exists_read hc
    rw [decodeLoop_item hdue.toItemDue hfuel hread hdue.pair, if_neg hdue.inBlock, if_neg (not_not.2 hdue.flagged),
      if_neg hdue.fits.not_gt, if_pos hzero]
  | corrupt hdue hl hd hfar =>
    obtain ⟨b, hread⟩ := hdue.exists_read hc
    rw [decodeLoop_item hdue.toItemDue hfuel hread hdue.pair, if_neg hdue.inBlock, if_neg (not_not.2 hdue.flagged),
      if_neg hdue.fits.not_gt, if_neg (by omega), if_pos hfar]
  | ref hdue hl hd hreach _ ih =>
    obtain ⟨b, hread⟩ := hdue.exists_read hc
    have hleft := hdue.left
    rw [decodeLoop_item hdue.toItemDue hfuel hread hdue.pair, if_neg hdue.inBlock, if_neg (not_not.2 hdue.flagged),
      if_neg hdue.fits.not_gt, if_neg (by omega), if_neg hreach.not_gt]
    exact ih (by omega)

/-- `Decode` of a non-empty input is what its passes end in. -/
theorem decodeRun_eq_iff (hc : c ≤ input.length) (hpos : c ≠ 0) :
    decodeRun p input c t = r ↔ Decoding p input c t 0 8 0 [] r := by
  rw [decodeRun, if_neg hpos]
  exact ⟨fun h => h ▸ decoding_decodeLoop hc c.zero_le le_rfl, fun h => h.decodeLoop_eq hc le_rfl⟩

/-- The outcome alone, wherever the input cursor ends. -/
theorem decodeCall_eq_iff {outcome : CallOutcome} (hc : c ≤ input.length) (hpos : c ≠ 0) :
    decodeCall p input c t = outcome ↔ ∃ q, Decoding p input c t 0 8 0 [] ⟨outcome, q⟩ := by
  simp only [decodeCall, ← decodeRun_eq_iff hc hpos]
  constructor
  · rintro rfl
    exact ⟨_, rfl⟩
  · rintro ⟨q, h⟩
    rw [h]

end Loop

section Success

variable {p : Params} {input bytes : List Byte} {c t ip idx q : Nat} {ctrl : Byte} {out : List Byte}

/-! ### What a success says of its passes -/

/-- Induction over the passes of a success: none of them is a failure. -/
theorem Decoding.success_induction {ip₀ idx₀ : Nat} {ctrl₀ : Byte} {out₀ : List Byte}
    {motive : ∀ ip idx ctrl out, Decoding p input c t ip idx ctrl out ⟨.success bytes, q⟩ → Prop}
    (target : ∀ {idx ctrl} (hout : bytes.length = t), motive q idx ctrl bytes (.target hout))
    (ctrl : ∀ {ip idx ctrl out} (b : Byte) (hdue : ItemDue c t ip out) (hread : input[ip]? = some b) (hidx : idx = 8)
      (rest : Decoding p input c t (ip + 1) 0 b out ⟨.success bytes, q⟩),
      motive _ _ _ _ rest → motive ip idx ctrl out (.ctrl b hdue hread hidx rest))
    (lit : ∀ {ip idx ctrl out} (b : Byte) (hdue : ItemDue c t ip out) (hread : input[ip]? = some b) (hidx : idx ≠ 8)
      (hflag : flag p ctrl idx ≠ p.refFlag)
      (rest : Decoding p input c t (ip + 1) (idx + 1) ctrl (out ++ [b]) ⟨.success bytes, q⟩),
      motive _ _ _ _ rest → motive ip idx ctrl out (.lit b hdue hread hidx hflag rest))
    (ref : ∀ {ip idx ctrl out d l} (hdue : RefDue p input c t ip idx ctrl out d l) (hl : 1 ≤ l) (hd : 1 ≤ d)
      (hreach : d ≤ out.length)
      (rest : Decoding p input c t (ip + p.refBytes) (idx + 1) ctrl
        (copyBytes (min l (t - out.length)) d out) ⟨.success bytes, q⟩),
      motive _ _ _ _ rest → motive ip idx ctrl out (.ref hdue hl hd hreach rest))
    (h : Decoding p input c t ip₀ idx₀ ctrl₀ out₀ ⟨.success bytes, q⟩) : motive ip₀ idx₀ ctrl₀ out₀ h := by
  suffices hany : ∀ {r} (h : Decoding p input c t ip₀ idx₀ ctrl₀ out₀ r)
      (hr : r = ⟨.success bytes, q⟩), motive ip₀ idx₀ ctrl₀ out₀ (hr ▸ h) from hany h rfl
  clear h
  intro r h hr
  induction h with
  | target hout => cases hr; exact target hout
  | ctrl b hdue hread hidx rest ih => subst hr; exact ctrl b hdue hread hidx rest (ih rfl)
  | lit b hdue hread hidx hflag rest ih => subst hr; exact lit b hdue hread hidx hflag rest (ih rfl)
  | ref hdue hl hd hreach rest ih => subst hr; exact ref hdue hl hd hreach rest (ih rfl)
  | truncated | oversized | invalid | corrupt => cases hr

/-- A success has the target length (R112). -/
theorem Decoding.length_success (h : Decoding p input c t ip idx ctrl out ⟨.success bytes, q⟩) :
    bytes.length = t := by
  induction h using Decoding.success_induction with
  | target hout => exact hout
  | ctrl _ _ _ _ _ ih | lit _ _ _ _ _ _ ih | ref _ _ _ _ _ ih => exact ih

/-- The input cursor never moves back. -/
theorem Decoding.le_of_success (h : Decoding p input c t ip idx ctrl out ⟨.success bytes, q⟩) : ip ≤ q := by
  induction h using Decoding.success_induction with
  | target => exact le_rfl
  | ctrl _ _ _ _ _ ih | lit _ _ _ _ _ _ ih => exact Nat.le_of_succ_le ih
  | ref _ _ _ _ _ ih => exact Nat.le_of_add_right_le ih

/-- A success that consumes nothing more writes nothing more. -/
theorem Decoding.eq_of_unmoved (h : Decoding p input c t ip idx ctrl out ⟨.success bytes, ip⟩) : bytes = out := by
  have hbytes := p.refBytes_pos
  cases h with
  | target => rfl
  | ctrl _ _ _ _ rest | lit _ _ _ _ _ rest | ref _ _ _ _ rest =>
    have hmoved := rest.le_of_success
    omega

/-- The bytes written so far stay at the front of a success. -/
theorem Decoding.prefix_success (h : Decoding p input c t ip idx ctrl out ⟨.success bytes, q⟩) : out <+: bytes := by
  induction h using Decoding.success_induction with
  | target => exact List.prefix_refl _
  | ctrl _ _ _ _ _ ih => exact ih
  | lit _ _ _ _ _ _ ih => exact (List.prefix_append _ _).trans ih
  | ref _ _ _ _ _ ih => exact (copyBytes_prefix ..).trans ih

/-! ### Less input, other input, a smaller target (R114, R117) -/

/-- The two ways a call whose input is cut short fails (R114). -/
def FailsAtCut (p : Params) (input : List Byte) (c t ip idx : Nat) (ctrl : Byte) (out : List Byte) : Prop :=
  ∃ q, Decoding p input c t ip idx ctrl out ⟨.failure .truncatedInput, q⟩ ∨
    Decoding p input c t ip idx ctrl out ⟨.failure .oversizedToken, q⟩

/-- A call that would consume its whole input, cut short, comes to the cut before the target (R114). -/
theorem Decoding.failsAtCut {c' : Nat} (h : Decoding p input c t ip idx ctrl out ⟨.success bytes, c⟩)
    (hcut : c' < c) (hip : ip ≤ c') : FailsAtCut p input c' t ip idx ctrl out := by
  induction h using Decoding.success_induction with
  | target => omega
  | ctrl b hdue hread hidx _ ih =>
    obtain hend | hleft := hip.eq_or_lt
    · exact ⟨_, .inl (.truncated hdue.room hend)⟩
    · have hdue' : ItemDue c' t _ _ := { hdue with left := hleft }
      exact (ih hleft).imp fun _ => .imp (.ctrl b hdue' hread hidx) (.ctrl b hdue' hread hidx)
  | lit b hdue hread hidx hflag _ ih =>
    obtain hend | hleft := hip.eq_or_lt
    · exact ⟨_, .inl (.truncated hdue.room hend)⟩
    · have hdue' : ItemDue c' t _ _ := { hdue with left := hleft }
      exact (ih hleft).imp fun _ => .imp (.lit b hdue' hread hidx hflag) (.lit b hdue' hread hidx hflag)
  | @ref ip idx ctrl out d l hdue hl hd hreach _ ih =>
    obtain hend | hleft := hip.eq_or_lt
    · exact ⟨_, .inl (.truncated hdue.room hend)⟩
    by_cases hfits : p.refBytes ≤ c' - ip
    · have hdue' : RefDue p input c' t ip idx ctrl out d l := { hdue with left := hleft, fits := hfits }
      exact (ih (by omega)).imp fun _ => .imp (.ref hdue' hl hd hreach) (.ref hdue' hl hd hreach)
    · exact ⟨_, .inr (.oversized { hdue with left := hleft } hdue.inBlock hdue.flagged (Nat.lt_of_not_le hfits))⟩

/-- Slices of two inputs that agree below `q` are the same below `q`. -/
theorem take_drop_congr {input' : List Byte} {n : Nat} (hsame : ∀ i < q, input'[i]? = input[i]?)
    (hfit : ip + n ≤ q) : (input'.drop ip).take n = (input.drop ip).take n := by
  refine List.ext_getElem? fun j => ?_
  simp only [List.getElem?_take, List.getElem?_drop]
  exact ite_congr rfl (fun hj => hsame _ (by omega)) fun _ => rfl

/-- A success reads only the input it consumes (R117). -/
theorem Decoding.of_agree {input' : List Byte} {c' : Nat}
    (h : Decoding p input c t ip idx ctrl out ⟨.success bytes, q⟩) (hq : q ≤ c')
    (hsame : ∀ i < q, input'[i]? = input[i]?) :
    Decoding p input' c' t ip idx ctrl out ⟨.success bytes, q⟩ := by
  induction h using Decoding.success_induction with
  | target hout => exact .target hout
  | ctrl b hdue hread hidx rest ih =>
    have hconsumed := rest.le_of_success
    exact .ctrl b { hdue with left := by omega } ((hsame _ hconsumed).trans hread) hidx ih
  | lit b hdue hread hidx hflag rest ih =>
    have hconsumed := rest.le_of_success
    exact .lit b { hdue with left := by omega } ((hsame _ hconsumed).trans hread) hidx hflag ih
  | ref hdue hl hd hreach rest ih =>
    have hbytes := p.refBytes_pos
    have hconsumed := rest.le_of_success
    have hpair := hdue.pair
    rw [← take_drop_congr hsame hconsumed] at hpair
    exact .ref { hdue with left := by omega, fits := by omega, pair := hpair } hl hd hreach ih

/-- With a smaller target that has been reached, the call has the bytes of its result up to there. -/
theorem Decoding.of_prefix {t' : Nat} (hfront : out <+: bytes) (hout : out.length = t') :
    Decoding p input c t' ip idx ctrl out ⟨.success (bytes.take t'), ip⟩ := by
  rw [← hout, ← List.prefix_iff_eq_take.1 hfront]
  exact .target rfl

/-- A copy of fewer bytes is the beginning of one of more. -/
theorem copyBytes_prefix_of_le {m n d : Nat} (hmn : m ≤ n) : copyBytes m d out <+: copyBytes n d out := by
  obtain ⟨k, rfl⟩ := Nat.exists_eq_add_of_le hmn
  exact copyBytes_add m k d out ▸ copyBytes_prefix ..

/-- With a smaller target the call makes the same passes until that is reached, the last one clipped (R117, R86). -/
theorem Decoding.smaller_target {t' : Nat} (h : Decoding p input c t ip idx ctrl out ⟨.success bytes, q⟩)
    (ht : t' ≤ t) (hfit : out.length ≤ t') :
    ∃ q', Decoding p input c t' ip idx ctrl out ⟨.success (bytes.take t'), q'⟩ := by
  induction h using Decoding.success_induction with
  | target hout => exact ⟨_, .of_prefix (List.prefix_refl _) (by omega)⟩
  | ctrl b hdue hread hidx rest ih =>
    obtain hreached | hmore := hfit.eq_or_lt
    · exact ⟨_, .of_prefix rest.prefix_success hreached⟩
    · exact (ih hfit).imp fun _ => .ctrl b { hdue with room := hmore.ne } hread hidx
  | lit b hdue hread hidx hflag rest ih =>
    obtain hreached | hmore := hfit.eq_or_lt
    · exact ⟨_, .of_prefix ((List.prefix_append _ _).trans rest.prefix_success) hreached⟩
    · exact (ih (by simpa using hmore)).imp fun _ => .lit b { hdue with room := hmore.ne } hread hidx hflag
  | @ref ip idx ctrl out d l hdue hl hd hreach rest ih =>
    obtain hreached | hmore := hfit.eq_or_lt
    · exact ⟨_, .of_prefix ((copyBytes_prefix ..).trans rest.prefix_success) hreached⟩
    have hnext : ∃ q', Decoding p input c t' (ip + p.refBytes) (idx + 1) ctrl
        (copyBytes (min l (t' - out.length)) d out) ⟨.success (bytes.take t'), q'⟩ := by
      by_cases hclip : l ≤ t' - out.length
      · have hsame : min l (t' - out.length) = min l (t - out.length) := by omega
        rw [hsame]
        exact ih (by rw [copyBytes_length hd hreach]; omega)
      · exact ⟨_, .of_prefix ((copyBytes_prefix_of_le (by omega)).trans rest.prefix_success)
          (by rw [copyBytes_length hd hreach]; omega)⟩
    exact hnext.imp fun _ => .ref { hdue with room := hmore.ne } hl hd hreach

end Success

/-! ### The statements about `Decode` alone -/

/-- Settles O51 (R113). -/
theorem decodeOfNothingIsEmptySuccess : Obligations.DecodeOfNothingIsEmptySuccess := fun _ _ _ => rfl

/-- Settles O50 (R112): an empty input is an empty success, and any other success ends at the target. -/
theorem decodeSuccessHasTheTargetLength : Obligations.DecodeSuccessHasTheTargetLength := by
  intro p input bytes c t hc h
  by_cases hzero : c = 0
  · subst hzero
    cases (decodeOfNothingIsEmptySuccess p input t).symm.trans h
    exact .inl ⟨rfl, rfl⟩
  · obtain ⟨q, hpasses⟩ := (decodeCall_eq_iff hc hzero).1 h
    exact .inr ⟨hzero, hpasses.length_success⟩

/-- Settles O52 (R114): the passes up to the cut are the same, and the call fails at it. -/
theorem truncatedStreamFails : Obligations.TruncatedStreamFails := by
  intro p input bytes c t c' hc _ h hpos hcut
  have hpasses := (decodeRun_eq_iff hc (by omega)).1 h
  obtain ⟨q, hfails⟩ := hpasses.failsAtCut hcut (Nat.zero_le _)
  have hcall {outcome : CallOutcome} : Decoding p input c' t 0 8 0 [] ⟨outcome, q⟩ →
      decodeCall p input c' t = outcome := fun h => (decodeCall_eq_iff (by omega) (by omega)).2 ⟨q, h⟩
  exact hfails.imp hcall hcall

/-- Settles O53 (R117): the call makes the same passes, unless it has none to make. -/
theorem unconsumedInputDoesNotMatter : Obligations.UnconsumedInputDoesNotMatter := by
  intro p input input' bytes c c' t q hc hpos h hq hc' hsame
  have hpasses := (decodeRun_eq_iff hc (by omega)).1 h
  by_cases hzero : c' = 0
  · obtain rfl : q = 0 := by omega
    rw [hpasses.eq_of_unmoved, hzero]
    exact decodeOfNothingIsEmptySuccess p input' t
  · exact (decodeCall_eq_iff hc' hzero).2 ⟨q, hpasses.of_agree hq hsame⟩

/-- Settles O54 (R117): the call makes the same passes up to the smaller target. -/
theorem smallerTargetYieldsAPrefix : Obligations.SmallerTargetYieldsAPrefix := by
  intro p input bytes c t t' hc hpos ht h
  obtain ⟨q, hpasses⟩ := (decodeCall_eq_iff hc (by omega)).1 h
  exact (decodeCall_eq_iff hc (by omega)).2 (hpasses.smaller_target ht (Nat.zero_le _))

end Sys2Proof.Machine

/-! The family of 45_decode_function.md, the engine against the function. `OutputIs` ties OUT to the byte list `Decode`
keeps; a micro-step either ends the call as `Decode` does from there, or goes on to a state from which `Decode`, with
one pass more, gives the same (`decodeStep_engineStep`). `Expanding` keeps the expansion of the items consumed beside
the output written. -/

namespace Sys2Proof.Machine

/-! ### The output so far -/

/-- OUT holds exactly the bytes of the list, which are `OUT_POS` many (20_memory.md R39). -/
structure OutputIs (s : State) (out : List Byte) : Prop where
  length : out.length = s.outPos
  read : ∀ i, s.outMem.read i = out[i]?

theorem outputIs_launch (op : StartOperands) (s : State) : OutputIs (launch op s) [] := ⟨rfl, fun _ => rfl⟩

/-- The next byte of output is the next of the list (R39). -/
theorem OutputIs.putByte {s : State} {out : List Byte} (h : OutputIs s out) (v : Byte) :
    OutputIs (putByte v s) (out ++ [v]) where
  length := by rw [List.length_append, List.length_singleton, h.length, putByte_outPos]
  read := fun i => by
    rw [putByte_outMem, Memory.read_write, ← h.length]
    split_ifs with hlast
    · rw [hlast, List.getElem?_concat_length]
    · obtain hbelow | hbeyond := Nat.lt_or_gt_of_ne hlast
      · rw [List.getElem?_append_left hbelow, h.read]
      · rw [h.read, List.getElem?_eq_none hbeyond.le, List.getElem?_eq_none (by simpa using hbeyond)]

/-- The byte a COPY reads is the one `Decode` repeats (R88). -/
theorem OutputIs.getElem?_source {s : State} {out : List Byte} {v : Byte} (h : OutputIs s out)
    (hread : s.outMem.read (s.outPos - s.copyDist) = some v) : out[out.length - s.copyDist]? = some v := by
  rw [h.length, ← h.read, hread]

/-- One byte of a copy still to come, written by COPY (R88). -/
theorem OutputIs.copyBytes_succ {s : State} {out : List Byte} {v : Byte} {n : Nat} (h : OutputIs s out)
    (hread : s.outMem.read (s.outPos - s.copyDist) = some v) :
    copyBytes (n + 1) s.copyDist out = copyBytes n s.copyDist (out ++ [v]) := by
  rw [Machine.copyBytes_succ, h.getElem?_source hread, Option.toList_some]

/-! ### The engine computes `Decode` (R108) -/

/-- `Decode` from the engine's state on ends as given: the copy in progress first, then the loop of R107. -/
def DecodesFrom (p : Params) (input : List Byte) (s : State) (out : List Byte) (r : CallRun) : Prop :=
  Decoding p input s.cmpLen s.tgtLen s.inPos s.ctrlIdx.val s.ctrl (copyBytes s.copyRem s.copyDist out) r

/-- At a token boundary no copy is in progress (R20). -/
theorem decodesFrom_boundary {p : Params} {input out : List Byte} {s : State} {r : CallRun} (hrem : s.copyRem = 0) :
    DecodesFrom p input s out r ↔
      Decoding p input s.cmpLen s.tgtLen s.inPos s.ctrlIdx.val s.ctrl out r := by
  rw [DecodesFrom, hrem, copyBytes_zero]

/-- The engine has ended a call as `Decode` does (R108). -/
inductive Answers : CallRun → State → Prop
  | success {s : State} {out : List Byte} (hout : OutputIs s out) :
      Answers ⟨.success out, s.inPos⟩ (finishSuccess out.length s)
  | failure (s : State) (cause : Cause) : Answers ⟨.failure cause, s.inPos⟩ (raise cause s)

/-- A call over the given input, which is not empty, with the input cursor inside it (R32, R107). -/
structure Reading (input : List Byte) (s : State) : Prop where
  input : InputIs s (operands s) input
  inPos_le : s.inPos ≤ s.cmpLen
  nonempty : s.cmpLen ≠ 0

/-- Every micro-step stays in its call. -/
theorem Reading.engineStep {p : Params} {input : List Byte} {s t : State} (h : Reading input s)
    (hstep : EngineStep p s t) : Reading input t := by
  have hops : operands t = operands s := (operands_engineStep hstep).1
  have hlen : t.cmpLen = s.cmpLen := congrArg StartOperands.cmpLen hops
  refine ⟨?_, ?_, hlen ▸ h.nonempty⟩
  · rw [hops, InputIs, inMem_engineStep hstep]
    exact h.input
  · rw [hlen]
    cases hstep with
    | ctrl c hsel | lit v hsel => exact (room_of_selected hsel).2
    | ref bytes hsel hfit =>
      obtain ⟨-, hleft⟩ := room_of_selected hsel
      rw [refTaken_inPos]
      omega
    | _ => exact h.inPos_le

/-- The byte the engine reads is the next one of the input. -/
theorem Reading.read {p : Params} {kind : ItemKind} {input : List Byte} {s : State} {b : Byte} (h : Reading input s)
    (hsel : selected p kind s = true) (hread : s.inMem.read s.inPos = some b) : input[s.inPos]? = some b :=
  (h.input.2 _ (room_of_selected hsel).2).symm.trans hread

/-- The token the engine reads is the slice of the input that `Decode` reads (R107). -/
theorem Reading.take_drop {s : State} {input bytes : List Byte} {i n : Nat} (h : Reading input s)
    (hbytes : inBytes s i n = some bytes) : (input.drop i).take n = bytes := by
  obtain ⟨hlen, hread⟩ := inBytes_eq_some.1 hbytes
  refine List.ext_getElem? fun j => ?_
  rw [List.getElem?_take, List.getElem?_drop]
  split_ifs with hj
  · have hbyte : inRead s (i + j) = some (bytes[j]'(by omega)) := (hread j hj).trans (List.getElem?_eq_getElem _)
    obtain ⟨hlt, hmem⟩ := inRead_eq_some.1 hbyte
    rw [← h.input.2 _ hlt, hmem, List.getElem?_eq_getElem]
  · rw [List.getElem?_eq_none (by omega)]

/-- Where a micro-step leaves a call that `Decode` describes. -/
inductive DecodeStep (p : Params) (input : List Byte) (s : State) (out : List Byte) (t : State) : Prop
  | ended (r : CallRun) (hdone : t.phase = .done) (h : DecodesFrom p input s out r) (hanswer : Answers r t)
  | goesOn (out' : List Byte) (hrun : t.phase = .run) (hout : OutputIs t out')
      (hpass : ∀ r, DecodesFrom p input t out' r → DecodesFrom p input s out r)

section

variable {p : Params} {input out : List Byte} {s : State} (hreading : Reading input s)
  (hout : OutputIs s out)

include hout

/-- Where an item is selected, the loop is at an item (R69, R107). -/
theorem OutputIs.itemDue {kind : ItemKind} (hsel : selected p kind s = true) :
    ItemDue s.cmpLen s.tgtLen s.inPos out := by
  obtain ⟨hroom, hleft⟩ := room_of_selected hsel
  exact ⟨hout.length ▸ hroom.ne, hleft⟩

include hreading

/-- Where a reference is selected and its bytes are there, the loop reads the same pair. -/
theorem Reading.refDue {bytes : List Byte} (hsel : selected p .ref s = true)
    (hfit : p.refBytes ≤ s.cmpLen - s.inPos) (hbytes : inBytes s s.inPos p.refBytes = some bytes) :
    RefDue p input s.cmpLen s.tgtLen s.inPos s.ctrlIdx.val s.ctrl out (p.refDecode bytes).1 (p.refDecode bytes).2 := by
  obtain ⟨-, hidx, href⟩ := selected_ref_iff.1 hsel
  exact ⟨hout.itemDue hsel, hidx.ne, nextIsRef_iff.1 href, hfit, congrArg p.refDecode (hreading.take_drop hbytes)⟩

/-- A CTRL fetch is the pass that reads a control byte (R72). -/
theorem decodeStep_ctrl {c : Byte} (hsel : selected p .ctrl s = true) (hread : s.inMem.read s.inPos = some c) :
    DecodeStep p input s out (ctrlTaken c s) := by
  obtain ⟨hrun, hrem⟩ := boundary_of_selected hsel
  refine .goesOn out hrun { hout with } fun r h => (decodesFrom_boundary hrem).2 ?_
  exact .ctrl c (hout.itemDue hsel) (hreading.read hsel hread) (congrArg Fin.val (selected_ctrl_iff.1 hsel).2)
    ((decodesFrom_boundary (s := ctrlTaken c s) hrem).1 h)

/-- A LIT is the pass that writes its byte (R79). -/
theorem decodeStep_lit {v : Byte} (hsel : selected p .lit s = true) (hread : s.inMem.read s.inPos = some v) :
    DecodeStep p input s out (literalTaken v s) := by
  obtain ⟨-, hidx, hlit⟩ := selected_lit_iff.1 hsel
  obtain ⟨hrun, hrem⟩ := boundary_of_selected hsel
  refine .goesOn (out ++ [v]) hrun { hout.putByte v with } fun r h => (decodesFrom_boundary hrem).2 ?_
  have hrest := (decodesFrom_boundary (s := literalTaken v s) hrem).1 h
  rw [literalTaken_ctrlIdx, ctrlIdx_succ_val hidx] at hrest
  exact .lit v (hout.itemDue hsel) (hreading.read hsel hread) hidx.ne
    (mt nextIsRef_iff.2 (Bool.eq_false_iff.1 hlit)) hrest

/-- An accepted REF is the pass that copies its bytes, and leaves the copy to be done (R81, R86). -/
theorem decodeStep_ref {bytes : List Byte} (hsel : selected p .ref s = true)
    (hfit : p.refBytes ≤ s.cmpLen - s.inPos) (hbytes : inBytes s s.inPos p.refBytes = some bytes)
    (hlength : 1 ≤ (p.refDecode bytes).2) (hdist : 1 ≤ (p.refDecode bytes).1)
    (hreach : (p.refDecode bytes).1 ≤ s.outPos) :
    DecodeStep p input s out (refTaken p (p.refDecode bytes).1 (p.refDecode bytes).2 s) := by
  obtain ⟨-, hidx, -⟩ := selected_ref_iff.1 hsel
  obtain ⟨hrun, hrem⟩ := boundary_of_selected hsel
  refine .goesOn out hrun { hout with } fun r h => (decodesFrom_boundary hrem).2 ?_
  rw [DecodesFrom, refTaken_copyRem, clippedCount, ← hout.length, refTaken_ctrlIdx, ctrlIdx_succ_val hidx] at h
  exact .ref (hreading.refDue hout hsel hfit hbytes) hlength hdist (hout.length ▸ hreach) h

/-- A rejected REF is the pass that fails with the same cause (R84, R85). -/
theorem decodeStep_refFail {bytes : List Byte} {cause : Cause} (hsel : selected p .ref s = true)
    (hfit : p.refBytes ≤ s.cmpLen - s.inPos) (hbytes : inBytes s s.inPos p.refBytes = some bytes)
    (hfail : refFailure p (p.refDecode bytes).1 (p.refDecode bytes).2 s = some cause) :
    DecodeStep p input s out (raise cause s) := by
  obtain ⟨hrun, hrem⟩ := boundary_of_selected hsel
  have hdue := hreading.refDue hout hsel hfit hbytes
  refine .ended _ rfl ((decodesFrom_boundary hrem).2 ?_) (.failure s cause)
  rw [refFailure_of_fit _ _ hfit] at hfail
  split_ifs at hfail with hzero hfar
  · cases hfail
    exact .invalid hdue hzero
  · cases hfail
    have hl : 1 ≤ (p.refDecode bytes).2 := by omega
    have hd : 1 ≤ (p.refDecode bytes).1 := by omega
    exact .corrupt hdue hl hd (hout.length ▸ hfar)

/-- Every micro-step of a running engine is a step of `Decode`, case by case of `EngineStep`. -/
theorem decodeStep_engineStep {t : State} (hstep : EngineStep p s t) (hrun : s.phase = .run) :
    DecodeStep p input s out t := by
  cases hstep with
  | none hstop => exact absurd hrun hstop
  | copy v _ hrem _ _ _ hread =>
    refine .goesOn (out ++ [v]) hrun { hout.putByte v with } fun r h => ?_
    obtain ⟨n, hn⟩ := Nat.exists_eq_add_one.2 hrem
    rw [DecodesFrom, hn, hout.copyBytes_succ hread]
    rwa [DecodesFrom, byteCopied_copyRem, hn, Nat.add_sub_cancel] at h
  | zeroLength _ _ hzero => exact absurd hzero hreading.nonempty
  | target _ hrem _ htarget =>
    have hfull : out.length = s.tgtLen := hout.length.trans htarget
    exact .ended _ rfl ((decodesFrom_boundary hrem).2 (.target hfull)) (hfull ▸ .success hout)
  | truncated _ hrem _ hmore hend =>
    exact .ended _ rfl ((decodesFrom_boundary hrem).2 (.truncated (hout.length ▸ hmore) hend)) (.failure s _)
  | oversized _ hrem _ hmore hend hidx href hcut =>
    have hdue : ItemDue s.cmpLen s.tgtLen s.inPos out := ⟨hout.length ▸ hmore, hreading.inPos_le.lt_of_ne hend⟩
    exact .ended _ rfl ((decodesFrom_boundary hrem).2 (.oversized hdue hidx.ne (nextIsRef_iff.1 href) hcut))
      (.failure s _)
  | ctrl c hsel hread => exact decodeStep_ctrl hreading hout hsel hread
  | lit v hsel hread => exact decodeStep_lit hreading hout hsel hread
  | refFail bytes cause hsel hfit hbytes hfail => exact decodeStep_refFail hreading hout hsel hfit hbytes hfail
  | ref bytes hsel hfit hbytes hlength hdist hreach =>
    exact decodeStep_ref hreading hout hsel hfit hbytes hlength hdist hreach

end

/-- A run that ends a call ends it as `Decode` does from its first state. -/
theorem exists_decodesFrom_engineRun {p : Params} {input out : List Byte} {k : Nat} {s u : State}
    (hrun : s.phase = .run) (hreading : Reading input s) (hout : OutputIs s out)
    (hturns : engineRun p k s = .next u) (hdone : u.phase = .done) :
    ∃ r, DecodesFrom p input s out r ∧ Answers r u := by
  induction k generalizing s out with
  | zero =>
    cases hturns
    exact nomatch hrun.symm.trans hdone
  | succ k ih =>
    obtain ⟨t, hturn, hrest⟩ := engineRun_succ_next hturns
    have hstep : EngineStep p s t := engineTurn_cases hturn
    cases decodeStep_engineStep hreading hout hstep hrun with
    | ended r hdone h hanswer =>
      rw [engineRun_of_not_run (by simp [hdone])] at hrest
      cases hrest
      exact ⟨r, h, hanswer⟩
    | goesOn out' hrun' hout' hpass =>
      obtain ⟨r, h, hanswer⟩ := ih hrun' (hreading.engineStep hstep) hout' hrest
      exact ⟨r, hpass r h, hanswer⟩

/-- A launched call ends, and ends as `Decode` answers. -/
theorem exists_answers_launch {p : Params} {op : StartOperands} {input : List Byte} {s : State}
    (hlaunch : launchRefusal p s op = none) (hinput : InputIs s op input) :
    ∃ k u, engineRun p k (launch op s) = .next u ∧ u.phase = .done ∧
      Answers (decodeRun p input op.cmpLen op.tgtLen) u := by
  by_cases hzero : op.cmpLen = 0
  · have hturn : engineTurn p (launch op s) = .next (finishSuccess 0 (launch op s)) :=
      engineTurn_zeroLength rfl rfl hzero
    rw [decodeRun, if_pos hzero]
    exact ⟨1, _, engineRun_succ hturn, rfl, .success (outputIs_launch op s)⟩
  · obtain ⟨k, -, ⟨u, hturns, hdone⟩, -⟩ := exists_endsAfter_launch hlaunch
    obtain ⟨r, hdecodes, hanswer⟩ :=
      exists_decodesFrom_engineRun rfl ⟨hinput, Nat.zero_le _, hzero⟩ (outputIs_launch op s) hturns hdone
    have hrun : decodeRun p input op.cmpLen op.tgtLen = r := (decodeRun_eq_iff hinput.1 hzero).2 hdecodes
    exact ⟨k, u, hturns, hdone, hrun ▸ hanswer⟩

/-- Settles O47 (R108). -/
theorem theEngineComputesDecode : Obligations.TheEngineComputesDecode := by
  intro p op input s t hbegin hinput
  obtain ⟨-, hlaunch, rfl⟩ := beginsCall_iff.1 hbegin
  obtain ⟨k, u, hturns, hdone, hanswer⟩ := exists_answers_launch hlaunch hinput
  have hdst : u.dstBase = op.dstBase := congrArg StartOperands.dstBase (operands_engineRun hturns)
  refine ⟨k, u, hturns, hdone, ?_⟩
  rw [decodeCall]
  generalize decodeRun p input op.cmpLen op.tgtLen = r at hanswer
  cases hanswer with
  | success hout => exact ⟨rfl, rfl, rfl, hdst, rfl, fun i _ => hout.read i⟩
  | failure s cause => exact ⟨rfl, rfl, rfl, rfl, rfl⟩

/-! ### The output is the expansion of the items consumed (R121) -/

theorem expandItems_append_singleton (items : List Instr) (i : Instr) :
    expandItems (items ++ [i]) = expandItem (expandItems items) i := by
  simp [expandItems]

/-- The items consumed expand to the output so far and the bytes that the last reference has yet to add: COPY_REM is
their number `pending` clipped to the room that is left (R86). -/
structure Expanding (items : List Instr) (s : State) (out : List Byte) (pending : Nat) : Prop where
  output : OutputIs s out
  expansion : expandItems items = copyBytes pending s.copyDist out
  clipped : s.copyRem = clippedCount pending s
  /-- a call that is over reports no more than was written -/
  reported : s.phase ≠ .run → s.resSize ≤ s.outPos

theorem expanding_launch (op : StartOperands) (s : State) : Expanding [] (launch op s) [] 0 where
  output := outputIs_launch op s
  expansion := rfl
  clipped := (Nat.zero_min _).symm
  reported := fun hstop => absurd rfl hstop

section

variable {p : Params} {items : List Instr} {s : State} {out : List Byte} {pending : Nat}
  (h : Expanding items s out pending)

include h

/-- Where an item is wanted, all that was asked for has been written. -/
theorem Expanding.expandItems_eq {kind : ItemKind} (hsel : selected p kind s = true) : expandItems items = out := by
  obtain ⟨-, hrem⟩ := boundary_of_selected hsel
  obtain ⟨hroom, -⟩ := room_of_selected hsel
  have hnone : pending = 0 := by
    have hclip := h.clipped
    rw [clippedCount] at hclip
    omega
  rw [h.expansion, hnone, copyBytes_zero]

theorem Expanding.finishSuccess {n : Nat} (hn : n ≤ s.outPos) : Expanding items (finishSuccess n s) out pending :=
  { h with
    output := { h.output with }
    reported := fun _ => hn }

theorem Expanding.raise (cause : Cause) : Expanding items (raise cause s) out pending :=
  { h with
    output := { h.output with }
    reported := fun _ => Nat.zero_le _ }

theorem Expanding.ctrlTaken (c : Byte) :
    Expanding (items ++ [.ctrl c]) (ctrlTaken c s) out pending :=
  { h with
    output := { h.output with }
    expansion := (expandItems_append_singleton items _).trans h.expansion }

/-- A literal adds its byte to both (R79). -/
theorem Expanding.literalTaken {v : Byte} (hsel : selected p .lit s = true) :
    Expanding (items ++ [.lit v]) (literalTaken v s) (out ++ [v]) 0 where
  output := { h.output.putByte v with }
  expansion := by rw [expandItems_append_singleton, h.expandItems_eq hsel, expandItem, copyBytes_zero]
  clipped := by
    rw [literalTaken_copyRem, (boundary_of_selected hsel).2, clippedCount, Nat.zero_min]
  reported := fun hstop => absurd (boundary_of_selected hsel).1 hstop

/-- A reference adds its bytes to the expansion, and to the output by the copy it arms (R81). -/
theorem Expanding.refTaken {d l : Nat} (hsel : selected p .ref s = true) :
    Expanding (items ++ [.ref d l]) (refTaken p d l s) out l where
  output := { h.output with }
  expansion := by rw [expandItems_append_singleton, h.expandItems_eq hsel, expandItem, refTaken_copyDist]
  clipped := rfl
  reported := fun hstop => absurd (boundary_of_selected hsel).1 hstop

/-- COPY writes one of the bytes the reference has yet to add (R88). -/
theorem Expanding.byteCopied {v : Byte} (hrun : s.phase = .run) (hrem : 0 < s.copyRem)
    (hread : s.outMem.read (s.outPos - s.copyDist) = some v) :
    Expanding items (byteCopied v s) (out ++ [v]) (pending - 1) := by
  have hclip := h.clipped
  rw [clippedCount] at hclip
  obtain ⟨n, rfl⟩ := Nat.exists_eq_add_one.2 (show 0 < pending by omega)
  exact {
    output := { h.output.putByte v with }
    expansion := h.expansion.trans (h.output.copyBytes_succ hread)
    clipped := by
      rw [byteCopied_copyRem, clippedCount, byteCopied_tgtLen, byteCopied_outPos]
      omega
    reported := fun hstop => absurd hrun hstop }

/-- Every micro-step adds to the expansion the item it consumes, case by case of `EngineStep`. -/
theorem Expanding.engineStep {t : State} (hstep : EngineStep p s t) :
    ∃ out' pending', Expanding (items ++ (nextItem p s).toList) t out' pending' := by
  cases hstep with
  | none hstop =>
    rw [nextItem_of_dispatch (dispatch_of_not_run hstop) nofun, Option.toList_none, List.append_nil]
    exact ⟨_, _, h⟩
  | copy v hrun hrem _ _ _ hread =>
    rw [nextItem_of_dispatch (dispatch_copy hrun hrem) nofun, Option.toList_none, List.append_nil]
    exact ⟨_, _, h.byteCopied hrun hrem hread⟩
  | zeroLength hrun hrem hlen =>
    rw [nextItem_of_dispatch (dispatch_zeroLength hrun hrem hlen) nofun, Option.toList_none, List.append_nil]
    exact ⟨_, _, h.finishSuccess (Nat.zero_le _)⟩
  | target hrun hrem hlen hout =>
    rw [nextItem_of_dispatch (dispatch_target hrun hrem hlen hout) nofun, Option.toList_none, List.append_nil]
    exact ⟨_, _, h.finishSuccess hout.ge⟩
  | truncated hrun hrem hlen hout hin =>
    rw [nextItem_of_dispatch (dispatch_truncated hrun hrem hlen hout hin) nofun, Option.toList_none,
      List.append_nil]
    exact ⟨_, _, h.raise _⟩
  | oversized hrun hrem hlen hout hin hidx href hcut =>
    rw [nextItem_oversized (dispatch_ref hrun hrem hlen hout hin hidx href) hcut, Option.toList_none,
      List.append_nil]
    exact ⟨_, _, h.raise _⟩
  | ctrl c hsel hread =>
    rw [nextItem_ctrl hsel hread]
    exact ⟨_, _, h.ctrlTaken c⟩
  | lit v hsel hread =>
    rw [nextItem_lit hsel hread]
    exact ⟨_, _, h.literalTaken hsel⟩
  | refFail bytes cause hsel _ hbytes hfail =>
    rw [nextItem_ref hsel hbytes, if_neg (by simp [hfail]), Option.toList_none, List.append_nil]
    exact ⟨_, _, h.raise _⟩
  | ref bytes hsel hfit hbytes hlength hdist hreach =>
    rw [nextItem_ref hsel hbytes, if_pos (refFailure_none_iff.2 ⟨hfit, hlength, hdist, hreach⟩)]
    exact ⟨_, _, h.refTaken hsel⟩

/-- A run adds the items it consumes. -/
theorem Expanding.engineRun {k : Nat} {u : State} (hrun : engineRun p k s = .next u) :
    ∃ out' pending', Expanding (items ++ itemsRun p k s) u out' pending' := by
  induction k generalizing items s out pending with
  | zero =>
    cases hrun
    exact ⟨out, pending, by rwa [itemsRun, List.append_nil]⟩
  | succ k ih =>
    obtain ⟨t, hturn, hrest⟩ := engineRun_succ_next hrun
    obtain ⟨out', pending', hnext⟩ := h.engineStep (engineTurn_cases hturn)
    simp only [itemsRun, hturn, ← List.append_assoc]
    exact ih hnext hrest

end

/-- Settles O49 (R121): the output is the beginning of the expansion, and the size reported lies within it. -/
theorem outputIsTheExpansionOfTheItems : Obligations.OutputIsTheExpansionOfTheItems := by
  intro p op s t u k hbegin hrun hdone _
  obtain ⟨-, -, rfl⟩ := beginsCall_iff.1 hbegin
  obtain ⟨out, pending, h⟩ := (expanding_launch op s).engineRun hrun
  rw [List.nil_append] at h
  obtain ⟨more, hmore⟩ : out <+: expandItems (itemsRun p k (launch op s)) := h.expansion ▸ copyBytes_prefix ..
  have hsize : u.resSize ≤ out.length := h.output.length ▸ h.reported (by simp [hdone])
  rw [← hmore]
  refine ⟨hsize.trans (List.length_append ▸ Nat.le_add_right _ _), fun i hi => ?_⟩
  rw [h.output.read, List.getElem?_append_left (hi.trans_le hsize)]

end Sys2Proof.Machine

/-! The family of 45_decode_function.md, streams written down: `Accepts` says which bytes stand for which tokens and
what they write, `decoding_block` decodes a control byte with its tokens, and a whole stream is decoded block by
block. -/

namespace Sys2Proof.Machine

/-- The tokens, written as the given bytes, are accepted one after another, and take the output from `out` to
`out'` (R79, R81, R121). -/
inductive Accepts (p : Params) : (out : List Byte) → List Instr → (code : List Byte) → (out' : List Byte) → Prop
  | nil (out : List Byte) : Accepts p out [] [] out
  | lit {out toks code out'} (v : Byte) (rest : Accepts p (out ++ [v]) toks code out') :
      Accepts p out (.lit v :: toks) (v :: code) out'
  | ref {out toks code out'} {d l : Nat} {token : List Byte} (hlen : token.length = p.refBytes)
      (hpair : p.refDecode token = (d, l)) (hl : 1 ≤ l) (hd : 1 ≤ d) (hreach : d ≤ out.length)
      (rest : Accepts p (copyBytes l d out) toks code out') :
      Accepts p out (.ref d l :: toks) (token ++ code) out'

/-- Every token writes at least one byte. -/
theorem Accepts.length_le {p : Params} {out out' code : List Byte} {toks : List Instr}
    (h : Accepts p out toks code out') : out.length + toks.length ≤ out'.length := by
  induction h with
  | nil => exact le_rfl
  | lit v _ ih =>
    rw [List.length_append, List.length_singleton] at ih
    rw [List.length_cons]
    omega
  | ref _ _ hl hd hreach _ ih =>
    rw [copyBytes_length hd hreach] at ih
    rw [List.length_cons]
    omega

/-- The flags from number `idx` on classify the tokens (R74). -/
def FlagsMatch (p : Params) (c : Byte) (idx : Nat) (toks : List Instr) : Prop :=
  ∀ k tok, toks[k]? = some tok → (flag p c (idx + k) = p.refFlag ↔ tok.kind = .ref)

theorem FlagsMatch.head {p : Params} {c : Byte} {idx : Nat} {tok : Instr} {toks : List Instr}
    (h : FlagsMatch p c idx (tok :: toks)) : flag p c idx = p.refFlag ↔ tok.kind = .ref := h 0 tok rfl

theorem FlagsMatch.tail {p : Params} {c : Byte} {idx : Nat} {tok : Instr} {toks : List Instr}
    (h : FlagsMatch p c idx (tok :: toks)) : FlagsMatch p c (idx + 1) toks := fun k t hk => by
  rw [Nat.add_right_comm]
  exact h (k + 1) t hk

section

variable {p : Params} {out out' code : List Byte} {toks : List Instr} {t : Nat} {r : CallRun}

/-- Inside a block the passes of its tokens lead up to whatever comes after them. -/
theorem Accepts.decoding {c : Byte} {idx : Nat} {pre tail : List Byte} (h : Accepts p out toks code out')
    (hflags : FlagsMatch p c idx toks) (hidx : idx + toks.length ≤ 8) (ht : out'.length ≤ t) {input : List Byte}
    (hinput : input = pre ++ (code ++ tail))
    (rest : Decoding p input input.length t (pre.length + code.length) (idx + toks.length) c out' r) :
    Decoding p input input.length t pre.length idx c out r := by
  induction h generalizing idx pre with
  | nil => exact rest
  | @lit out toks code out' v htoks ih =>
    have hlen := htoks.length_le
    rw [List.length_cons] at hidx
    rw [List.length_append, List.length_singleton] at hlen
    have hdue : ItemDue input.length t pre.length out := ⟨by omega, by simp [hinput]⟩
    refine .lit v hdue (by simp [hinput]) (by omega) (mt hflags.head.1 nofun) ?_
    have hpasses := ih (pre := pre ++ [v]) hflags.tail (by omega) ht (by simp [hinput])
    rw [List.length_append, List.length_singleton] at hpasses
    refine hpasses ?_
    rw [Nat.add_right_comm pre.length, Nat.add_right_comm idx]
    exact rest
  | @ref out toks code out' d l token htoken hpair hl hd hreach htoks ih =>
    have hbytes := p.refBytes_pos
    have hlen := htoks.length_le
    have hlength : input.length = pre.length + ((token ++ code).length + tail.length) := by
      rw [hinput, List.length_append, List.length_append]
    rw [List.length_append] at hlength
    rw [List.length_cons] at hidx
    rw [copyBytes_length hd hreach] at hlen
    have hslice : (input.drop pre.length).take p.refBytes = token := by simp [hinput, ← htoken]
    have hdue : RefDue p input input.length t pre.length idx c out d l :=
      ⟨⟨by omega, by omega⟩, by omega, hflags.head.2 rfl, by omega, hslice ▸ hpair⟩
    refine .ref hdue hl hd hreach ?_
    rw [min_eq_left (by omega), ← htoken]
    have hpasses := ih (pre := pre ++ token) hflags.tail (by omega) ht (by simp [hinput])
    rw [List.length_append] at hpasses
    refine hpasses ?_
    rw [Nat.add_assoc pre.length, ← List.length_append, Nat.add_right_comm idx]
    exact rest

/-- A control byte and the tokens of its block, wherever they stand in a stream. -/
theorem decoding_block {c ctrl : Byte} {pre tail input : List Byte} (h : Accepts p out toks code out')
    (hflags : FlagsMatch p c 0 toks) (hsome : 0 < toks.length) (hfull : toks.length ≤ 8) (ht : out'.length ≤ t)
    (hinput : input = pre ++ (c :: code ++ tail))
    (rest : Decoding p input input.length t (pre.length + (c :: code).length) toks.length c out' r) :
    Decoding p input input.length t pre.length 8 ctrl out r := by
  have hlen := h.length_le
  refine .ctrl c ⟨by omega, by simp [hinput]⟩ (by simp [hinput]) rfl ?_
  have hpasses := h.decoding (r := r) (pre := pre ++ [c]) (tail := tail) hflags (by omega) ht
    (show input = _ by simp [hinput])
  rw [List.length_append, List.length_singleton, Nat.zero_add, Nat.add_right_comm] at hpasses
  exact hpasses rest

/-- A stream of one block, whatever stands after it, decodes to what its tokens write. -/
theorem decodeCall_block {c : Byte} (tail : List Byte) (h : Accepts p [] toks code out')
    (hflags : FlagsMatch p c 0 toks) (hsome : 0 < toks.length) (hfull : toks.length ≤ 8) :
    decodeCall p (c :: code ++ tail) (c :: code ++ tail).length out'.length = .success out' :=
  (decodeCall_eq_iff le_rfl (by simp)).2
    ⟨_, decoding_block (pre := []) h hflags hsome hfull le_rfl rfl (.target rfl)⟩

end

theorem accepts_literals (p : Params) (out xs : List Byte) : Accepts p out (xs.map .lit) xs (out ++ xs) := by
  induction xs generalizing out with
  | nil => simpa using Accepts.nil out
  | cons x xs ih => exact .lit x (by simpa using ih (out ++ [x]))

/-- Settles O55 (R115): eight literals are one block. -/
theorem eightLiteralsComeThroughVerbatim : Obligations.EightLiteralsComeThroughVerbatim := by
  intro p c xs hflags hlen
  have hmatch : FlagsMatch p c 0 (xs.map .lit) := fun k tok hk => by
    rw [List.getElem?_map] at hk
    obtain ⟨x, hx, rfl⟩ := Option.map_eq_some_iff.1 hk
    have hlt : k < xs.length := (List.getElem?_eq_some_iff.1 hx).1
    rw [Nat.zero_add]
    exact ⟨fun hflag => absurd hflag (hflags k (hlen ▸ hlt)), nofun⟩
  have hblock := decodeCall_block [] (accepts_literals p [] xs) hmatch (by simp [hlen]) (by simp [hlen])
  simpa [hlen] using hblock

/-- Settles O56 (R116, 43_copy.md R89): a literal and a reference are one block, and the reference copies the
literal's byte five times. -/
theorem overlappingReferenceRepeatsTheByte : Obligations.OverlappingReferenceRepeatsTheByte := by
  intro p c a token trailing hlit href hlen hpair
  have haccepts : Accepts p [] [.lit a, .ref 1 5] (a :: (token ++ [])) (List.replicate 6 a) :=
    .lit a (.ref hlen hpair (Nat.succ_pos 4) le_rfl le_rfl (.nil _))
  have hmatch : FlagsMatch p c 0 [.lit a, .ref 1 5] := fun k tok hk => by
    rw [Nat.zero_add]
    match k, hk with
    | 0, hk => cases hk; exact ⟨fun hflag => absurd hflag hlit, nofun⟩
    | 1, hk => cases hk; exact ⟨fun _ => rfl, fun _ => href⟩
  have hblock := decodeCall_block trailing haccepts hmatch (by simp) (by simp)
  have hlength : (c :: a :: (token ++ []) ++ trailing).length = 2 + p.refBytes + trailing.length := by
    simp [hlen]
    omega
  rw [hlength, List.append_nil, List.length_replicate] at hblock
  exact hblock

/-! ### Encoded token lists (R118) -/

section

variable {lay : RefLayout} {order : BitOrder} {refFlag : Bool} {out : List Byte} {toks : List Instr}

/-- After a literal the rest is legal from the output with its byte. -/
theorem tokensLegal_lit (v : Byte) :
    tokensLegal lay out.length (.lit v :: toks) = tokensLegal lay (out ++ [v]).length toks := by
  rw [tokensLegal, List.length_append, List.length_singleton]

/-- A reference fits its layout and reaches written bytes, and the rest is legal from the output with its bytes
(R57, R85). -/
theorem tokensLegal_ref_iff {d l : Nat} : tokensLegal lay out.length (.ref d l :: toks) = true ↔
    (Instr.ref d l).wf lay = true ∧ 1 ≤ d ∧ d ≤ out.length ∧ 1 ≤ l ∧
      tokensLegal lay (copyBytes l d out).length toks = true := by
  simp only [tokensLegal, Bool.and_eq_true, decide_eq_true_eq, and_assoc]
  refine and_congr_right fun _ => and_congr_right fun hd => and_congr_right fun hreach => and_congr_right fun _ => ?_
  rw [copyBytes_length hd hreach]

/-- Legal tokens, encoded, are accepted and write their expansion. -/
theorem accepts_of_legal (h : tokensLegal lay out.length toks = true) :
    Accepts (lay.params order refFlag) out toks (toks.flatMap (encode lay)) (toks.foldl expandItem out) := by
  induction toks generalizing out with
  | nil => exact .nil out
  | cons tok toks ih =>
    cases tok with
    | ctrl c => cases h
    | lit v => exact .lit v (ih (tokensLegal_lit v ▸ h))
    | ref d l =>
      obtain ⟨hwf, hd, hreach, hl, hrest⟩ := tokensLegal_ref_iff.1 h
      exact .ref rfl (extract_encode_ref hwf) hl hd hreach (ih hrest)

/-- A legal list is legal at the front, and its rest is legal after the front's expansion. -/
theorem tokensLegal_append {front more : List Instr} (h : tokensLegal lay out.length (front ++ more) = true) :
    tokensLegal lay out.length front = true ∧
      tokensLegal lay (front.foldl expandItem out).length more = true := by
  induction front generalizing out with
  | nil => exact ⟨rfl, h⟩
  | cons tok front ih =>
    cases tok with
    | ctrl c => cases h
    | lit v =>
      rw [tokensLegal_lit]
      exact ih (tokensLegal_lit v ▸ h)
    | ref d l =>
      obtain ⟨hwf, hd, hreach, hl, hrest⟩ := tokensLegal_ref_iff.1 h
      obtain ⟨hfront, hmore⟩ := ih hrest
      exact ⟨tokensLegal_ref_iff.2 ⟨hwf, hd, hreach, hl, hfront⟩, hmore⟩

/-- The control byte the encoder places classifies the tokens of its block (R66, R68). -/
theorem flagsMatch_ctrlByteOf (p : Params) (hfull : toks.length ≤ 8) :
    FlagsMatch p (ctrlByteOf p (toks.map fun tok => tok.kind == .ref)) 0 toks := fun k tok hk => by
  have hlt : k < toks.length := (List.getElem?_eq_some_iff.1 hk).1
  rw [Nat.zero_add, controlByteCarriesItsFlags p _ k (by omega)]
  simp [List.getD_eq_getElem?_getD, hk]

/-- The first block of a stream and the blocks after it (R53). -/
theorem encodeBlocks_succ (p : Params) (n : Nat) (hsome : toks ≠ []) :
    encodeBlocks p lay (n + 1) toks =
      ctrlByteOf p ((toks.take blockTokens).map fun tok => tok.kind == .ref)
        :: (toks.take blockTokens).flatMap (encode lay) ++ encodeBlocks p lay n (toks.drop blockTokens) := by
  cases toks with
  | nil => exact absurd rfl hsome
  | cons => rfl

/-- A block before another block is full (R53). -/
theorem length_take_blockTokens (hmore : toks.drop blockTokens ≠ []) : (toks.take blockTokens).length = 8 :=
  List.length_take_of_le (le_of_not_ge (mt List.drop_eq_nil_iff.2 hmore))

/-- The blocks of a legal token list decode to its expansion, from wherever they stand and whatever was written
before them. -/
theorem exists_decoding_encodeBlocks {n idx t : Nat} {ctrl : Byte} {pre input : List Byte} (hn : toks.length ≤ n)
    (hlegal : tokensLegal lay out.length toks = true) (hidx : toks ≠ [] → idx = 8)
    (hinput : input = pre ++ encodeBlocks (lay.params order refFlag) lay n toks)
    (ht : (toks.foldl expandItem out).length = t) :
    ∃ q, Decoding (lay.params order refFlag) input input.length t pre.length idx ctrl out
      ⟨.success (toks.foldl expandItem out), q⟩ := by
  induction n generalizing toks out pre idx ctrl with
  | zero =>
    obtain rfl : toks = [] := List.length_eq_zero_iff.1 (by omega)
    exact ⟨_, .target ht⟩
  | succ n ih =>
    by_cases hsome : toks = []
    · subst hsome
      exact ⟨_, .target ht⟩
    have hpos : 0 < toks.length := List.length_pos_iff.2 hsome
    obtain ⟨hblock, hmore⟩ := tokensLegal_append (front := toks.take blockTokens) (more := toks.drop blockTokens)
      (by rwa [List.take_append_drop])
    have hfold : toks.foldl expandItem out =
        (toks.drop blockTokens).foldl expandItem ((toks.take blockTokens).foldl expandItem out) := by
      rw [← List.foldl_append, List.take_append_drop]
    rw [encodeBlocks_succ _ n hsome] at hinput
    rw [hfold] at ht ⊢
    have hfit := (accepts_of_legal (order := order) (refFlag := refFlag) hmore).length_le
    have hfewer : (toks.drop blockTokens).length < toks.length := by
      rw [List.length_drop]
      exact Nat.sub_lt hpos (by decide)
    obtain ⟨q, hrest⟩ := ih (by omega) hmore length_take_blockTokens (hinput.trans (List.append_assoc ..).symm) ht
    rw [hidx hsome]
    rw [List.length_append] at hrest
    exact ⟨q, decoding_block (accepts_of_legal hblock) (flagsMatch_ctrlByteOf _ (List.length_take_le ..))
      (List.length_take ▸ lt_min (by decide) hpos) (List.length_take_le ..) (by omega) hinput hrest⟩

end

/-- Settles O57 (R118, R121): the blocks decode from the start of the stream, and an empty list has none. -/
theorem encodedTokensDecodeToTheirExpansion : Obligations.EncodedTokensDecodeToTheirExpansion := by
  intro lay order refFlag toks hlegal
  by_cases hnone : toks = []
  · subst hnone
    rfl
  · obtain ⟨q, h⟩ := exists_decoding_encodeBlocks (order := order) (refFlag := refFlag) (out := []) (ctrl := 0)
      (pre := []) (idx := 8) le_rfl hlegal (fun _ => rfl) rfl rfl
    have hlength : (encodeTokens (lay.params order refFlag) lay toks).length ≠ 0 := by
      obtain ⟨n, hn⟩ := Nat.exists_eq_add_one.2 (List.length_pos_iff.2 hnone)
      rw [encodeTokens, hn, encodeBlocks_succ _ n hnone]
      exact Nat.succ_ne_zero _
    exact (decodeCall_eq_iff le_rfl hlength).2 ⟨q, h⟩

end Sys2Proof.Machine

/-! The family of 60_exceptions.md: how a call ends in failure, and several engines on a platform. A step of the
platform is a launch, or leaves every engine with no more of the host's memory than it had (`ClaimsNoMore`); either
keeps each pair of engines apart (`Apart`). -/

namespace Sys2Proof.Machine

/-! ### The end of a call (R126 to R130) -/

/-- Settles O37 (R126 to R128, R130): a turn that ends the call without success is `raise`, which leaves no live
result. -/
theorem failureIsPreciseAndExposesNothing : Obligations.FailureIsPreciseAndExposesNothing := by
  intro p s t hrun hturn hdone hfailed
  cases ending_engineStep (engineTurn_cases hturn) with
  | goesOn hphase => exact nomatch hdone.symm.trans (hphase.trans hrun)
  | success => cases hfailed
  | failure cause =>
    exact ⟨cause, rfl, rfl, hostReadOut_of_not_live rfl, engineTurn_none nofun⟩

/-- Settles O38 (R130, 70_reset_and_hazards.md R150). -/
theorem aFinishedCallIsFinal : Obligations.AFinishedCallIsFinal :=
  fun _ _ hdone => engineRun_of_not_run (by simp [hdone])

/-! ### What a step leaves of the other engines (R135) -/

/-- Settles O58 (R135, 20_memory.md R50): the engine that moves takes its own step, and `Platform.settle` changes the
others by a host write alone. -/
theorem enginesShareNothing : Obligations.EnginesShareNothing := by
  intro n p k pl pl' hstep
  refine ⟨Platform.step_at hstep, fun hnext j hj => ?_, fun i v ms hnext j hj => ?_⟩
  · rw [Platform.step_other hstep hj, Platform.settle_other hnext]
  · rw [Platform.step_other hstep hj, Platform.settle_writeOut hnext]
    exact ⟨afterHostWrite_eq .., afterHostWrite_read _ _ _ _⟩

/-! ### What a launch or a host write may touch of the others (R135, 20_memory.md R50, R52) -/

theorem Platform.refusal_start {n : Nat} {p : Params} {k : Fin n} {pl : Platform n} {op : StartOperands}
    {ms : List Move} (hnext : pl[k].agenda = .start op :: ms) (hstop : pl[k].phase ≠ .run)
    (hlaunch : Machine.launchRefusal p pl[k] op = none) : pl.refusal p k = pl.launchRefusal p k op := by
  unfold Platform.refusal
  rw [hnext]
  exact if_pos ⟨hstop, hlaunch⟩

theorem Platform.refusal_writeOut {n : Nat} {p : Params} {k : Fin n} {pl : Platform n} {i : Nat} {v : Byte}
    {ms : List Move} (hnext : pl[k].agenda = .writeOut i v :: ms) (hstop : pl[k].phase ≠ .run) :
    pl.refusal p k = pl.writeRefusal p k (p.locate pl[k].dstBase i) := by
  unfold Platform.refusal
  rw [hnext]
  exact if_pos hstop

theorem Platform.step_refused {n : Nat} {p : Params} {k : Fin n} {pl : Platform n} {r : Refusal}
    (h : pl.refusal p k = some r) : Platform.step p k pl = .refused r := by
  simp [Platform.step, h]

/-- A launch that neither the engine nor another engine's buffers forbid goes ahead (44_host_commands.md R94). -/
theorem Platform.step_start {n : Nat} {p : Params} {k : Fin n} {pl : Platform n} {op : StartOperands}
    {ms : List Move} (hnext : pl[k].agenda = .start op :: ms) (hstop : pl[k].phase ≠ .run)
    (hlaunch : Machine.launchRefusal p pl[k] op = none) (hothers : pl.launchRefusal p k op = none) :
    Platform.step p k pl = .next (pl.set k (launch op { pl[k] with agenda := ms })) := by
  have hsettle : pl.settle p k = pl := Platform.settle_other fun i v ms' h => nomatch hnext.symm.trans h
  obtain ⟨hpresent, hapart⟩ := Machine.launchRefusal_none_iff.1 hlaunch
  have hown : stepWith p pl[k] = .next (launch op { pl[k] with agenda := ms }) :=
    stepWith_start hnext hstop hpresent hapart
  refine Platform.step_next_iff.2 ⟨(Platform.refusal_start hnext hstop hlaunch).trans hothers, _, hown, ?_⟩
  rw [hsettle]

/-- Settles O59 (R135, 20_memory.md R50, R52, 44_host_commands.md R96): the checks of a launch and of a host write,
read as facts about locations. -/
theorem accessesAcrossEnginesFollowOwnership : Obligations.AccessesAcrossEnginesFollowOwnership := by
  intro n p k pl ms hstop
  refine ⟨fun op hnext hlaunch => ?_, fun i v hnext => ?_⟩
  · intro shares disagrees
    have hrefusal : pl.refusal p k = pl.launchRefusal p k op := Platform.refusal_start hnext hstop hlaunch
    have hshares : pl.anyOther k (launchShares p op) = true ↔ shares := by
      simp only [Platform.anyOther_iff, launchShares_iff, shares]
    have hdisagrees : pl.anyOther k (launchDisagrees p op pl[k]) = true ↔ disagrees := by
      simp only [Platform.anyOther_iff, launchDisagrees_iff, disagrees]
    rw [← hshares, ← hdisagrees]
    refine ⟨fun hs => ?_, fun hs hd => ?_, fun hs hd => ?_⟩
    · exact Platform.step_refused (hrefusal.trans (if_pos hs))
    · exact Platform.step_refused (hrefusal.trans ((if_neg hs).trans (if_pos hd)))
    · exact Platform.step_start hnext hstop hlaunch ((if_neg hs).trans (if_neg hd))
  · intro inOut inIn
    have hrefusal : pl.refusal p k = pl.writeRefusal p k (p.locate pl[k].dstBase i) :=
      Platform.refusal_writeOut hnext hstop
    have hout : pl.anyOther k (inRunningOut p (p.locate pl[k].dstBase i)) = true ↔ inOut := by
      simp only [Platform.anyOther_iff, inRunningOut_iff, inOut]
    have hin : pl.anyOther k (inRunningIn p (p.locate pl[k].dstBase i)) = true ↔ inIn := by
      simp only [Platform.anyOther_iff, inRunningIn_iff, inIn]
    rw [← hout, ← hin]
    refine ⟨fun ho => ?_, fun ho hi => ?_⟩
    · exact Platform.step_refused (hrefusal.trans (if_pos ho))
    · exact Platform.step_refused (hrefusal.trans ((if_neg ho).trans (if_pos hi)))

/-! ### Two engines kept apart -/

/-- A running engine's IN and OUT share no location (20_memory.md R46). -/
def OwnBuffersApart (p : Params) (s : State) : Prop :=
  s.phase = .run → ¬ Meets p s.srcBase s.cmpLen s.dstBase s.tgtLen

/-- What `PlatformInv` asks of an engine `a` towards another engine `b`. -/
structure Apart (p : Params) (a b : State) : Prop where
  outs : outInUse a = true → outInUse b = true → ¬ Meets p a.dstBase a.tgtLen b.dstBase b.tgtLen
  inOut : a.phase = .run → b.phase = .run → ¬ Meets p a.srcBase a.cmpLen b.dstBase b.tgtLen
  inputs : a.phase = .run → b.phase = .run →
    Agree p a.srcBase a.cmpLen a.inMem b.srcBase b.cmpLen b.inMem
  chained : a.phase = .run → liveResult b = true →
    Agree p a.srcBase a.cmpLen a.inMem b.dstBase b.resSize b.outMem

/-- `PlatformInv` speaks of one engine at a time, or of two. -/
theorem platformInv_iff {n : Nat} {p : Params} {pl : Platform n} : PlatformInv p pl ↔
    (∀ k : Fin n, Inv pl[k] ∧ OwnBuffersApart p pl[k]) ∧ ∀ j k : Fin n, j ≠ k → Apart p pl[j] pl[k] := by
  constructor
  · intro h
    exact ⟨fun k => ⟨h.engines k, fun hrun => h.inOut k k hrun hrun⟩, fun j k hjk =>
      ⟨h.outs j k hjk, h.inOut j k, h.inputs j k hjk, h.chained j k hjk⟩⟩
  · rintro ⟨hone, htwo⟩
    refine ⟨fun k => (hone k).1, fun j k hjk => (htwo j k hjk).outs, fun j k => ?_,
      fun j k hjk => (htwo j k hjk).inputs, fun j k hjk => (htwo j k hjk).chained⟩
    by_cases hjk : j = k
    · subst hjk
      exact fun hrun _ => (hone j).2 hrun
    · exact (htwo j k hjk).inOut

/-! ### A launch -/

theorem ownBuffersApart_launch {p : Params} {op : StartOperands} {s : State}
    (hlaunch : launchRefusal p s op = none) : OwnBuffersApart p (launch op s) := by
  rintro - ⟨i, hi, j, hj, hloc⟩
  exact (launchRefusal_none_iff.1 hlaunch).2 i hi j hj hloc

/-- What the checks of a launch establish towards an engine they look at. -/
theorem apart_launch {p : Params} {op : StartOperands} {s other : State}
    (hshares : launchShares p op other = false) (hdisagrees : launchDisagrees p op s other = false) :
    Apart p (launch op s) other ∧ Apart p other (launch op s) := by
  rw [← Bool.not_eq_true, launchShares_iff] at hshares
  rw [← Bool.not_eq_true, launchDisagrees_iff] at hdisagrees
  push Not at hshares hdisagrees
  obtain ⟨houts, hrunning⟩ := hshares
  obtain ⟨hinputs, hchained⟩ := hdisagrees
  exact ⟨⟨fun _ => houts, fun _ hrun => (hrunning hrun).1, fun _ => hinputs, fun _ => hchained⟩,
    ⟨fun huse _ hmeet => houts huse hmeet.symm, fun hrun _ hmeet => (hrunning hrun).2 hmeet.symm,
      fun hrun _ => (hinputs hrun).symm, fun _ hlive => nomatch hlive⟩⟩

/-! ### Every other step -/

/-- The location a move writes as the host's, if it is a host write (20_memory.md R35, R50). -/
def writeLocation (p : Params) (s : State) : Move → Option Nat
  | .writeOut i _ => some (p.locate s.dstBase i)
  | _ => none

/-- From `s` to `t` an engine lays hold of no location: it runs the call it ran, or holds the result of that call or
of an earlier one, with its bytes as they were but at the location `written`. -/
structure ClaimsNoMore (p : Params) (written : Option Nat) (s t : State) : Prop where
  running : t.phase = .run → s.phase = .run ∧ t.inMem = s.inMem
  inUse : outInUse t = true → outInUse s = true ∧ operands t = operands s
  result : liveResult t = true → (s.phase = .run ∧ t.resSize ≤ s.tgtLen) ∨
    (liveResult s = true ∧ t.resSize = s.resSize ∧
      ∀ x, written ≠ some (p.locate s.dstBase x) → t.outMem.read x = s.outMem.read x)

/-- No running engine reads the location `written`. -/
def NotReading (p : Params) (written : Option Nat) (s : State) : Prop :=
  s.phase = .run → ∀ x < s.cmpLen, written ≠ some (p.locate s.srcBase x)

theorem outInUse_of_run {s : State} (h : s.phase = .run) : outInUse s = true := outInUse_iff.2 (.inl h)

theorem outInUse_of_live {s : State} (h : liveResult s = true) : outInUse s = true :=
  outInUse_iff.2 (.inr (liveResult_iff.1 h))

theorem ClaimsNoMore.ownBuffersApart {p : Params} {written : Option Nat} {s t : State}
    (hst : ClaimsNoMore p written s t) (h : OwnBuffersApart p s) : OwnBuffersApart p t := by
  intro hrun
  obtain ⟨hsrc, hcmp, htgt, hdst⟩ := StartOperands.mk.inj (hst.inUse (outInUse_of_run hrun)).2
  rw [hsrc, hcmp, htgt, hdst]
  exact h (hst.running hrun).1

/-- Two engines that claim no more stay apart. A result one has just completed meets no IN of the other, since the
OUT it stands in met none; a byte of an older one is the same unless the other does not read it. -/
theorem ClaimsNoMore.apart {p : Params} {written : Option Nat} {a a' b b' : State}
    (ha : ClaimsNoMore p written a a') (hb : ClaimsNoMore p written b b') (hreads : NotReading p written a)
    (h : Apart p a b) : Apart p a' b' := by
  have hopsA (huse : outInUse a' = true) := StartOperands.mk.inj (ha.inUse huse).2
  have hopsB (huse : outInUse b' = true) := StartOperands.mk.inj (hb.inUse huse).2
  refine ⟨fun huseA huseB => ?_, fun hrunA hrunB => ?_, fun hrunA hrunB => ?_, fun hrunA hlive => ?_⟩
  · obtain ⟨-, -, htgtA, hdstA⟩ := hopsA huseA
    obtain ⟨-, -, htgtB, hdstB⟩ := hopsB huseB
    rw [htgtA, hdstA, htgtB, hdstB]
    exact h.outs (ha.inUse huseA).1 (hb.inUse huseB).1
  · obtain ⟨hsrcA, hcmpA, -, -⟩ := hopsA (outInUse_of_run hrunA)
    obtain ⟨-, -, htgtB, hdstB⟩ := hopsB (outInUse_of_run hrunB)
    rw [hsrcA, hcmpA, htgtB, hdstB]
    exact h.inOut (ha.running hrunA).1 (hb.running hrunB).1
  · obtain ⟨hsrcA, hcmpA, -, -⟩ := hopsA (outInUse_of_run hrunA)
    obtain ⟨hsrcB, hcmpB, -, -⟩ := hopsB (outInUse_of_run hrunB)
    obtain ⟨hrunA, hmemA⟩ := ha.running hrunA
    obtain ⟨hrunB, hmemB⟩ := hb.running hrunB
    rw [hsrcA, hcmpA, hmemA, hsrcB, hcmpB, hmemB]
    exact h.inputs hrunA hrunB
  · obtain ⟨hsrcA, hcmpA, -, -⟩ := hopsA (outInUse_of_run hrunA)
    obtain ⟨-, -, -, hdstB⟩ := hopsB (outInUse_of_live hlive)
    obtain ⟨hrunA, hmemA⟩ := ha.running hrunA
    rw [hsrcA, hcmpA, hmemA, hdstB]
    intro i hi j hj hloc
    obtain ⟨hrunB, hsize⟩ | ⟨hliveB, hsize, hread⟩ := hb.result hlive
    · exact absurd ⟨i, hi, j, hj.trans_le hsize, hloc⟩ (h.inOut hrunA hrunB)
    · rw [hread j (hloc ▸ hreads hrunA i hi)]
      exact h.chained hrunA hliveB i hi j (hsize ▸ hj) hloc

/-- A change of OUT alone, at the location written. -/
theorem claimsNoMore_outMem {p : Params} {written : Option Nat} {s : State} {m : Memory}
    (h : ∀ x, written ≠ some (p.locate s.dstBase x) → m.read x = s.outMem.read x) :
    ClaimsNoMore p written s { s with outMem := m } :=
  ⟨fun hrun => ⟨hrun, rfl⟩, fun huse => ⟨huse, rfl⟩, fun hlive => .inr ⟨hlive, rfl, h⟩⟩

theorem ClaimsNoMore.refl (p : Params) (written : Option Nat) (s : State) : ClaimsNoMore p written s s :=
  claimsNoMore_outMem fun _ _ => rfl

theorem claimsNoMore_of_idle {p : Params} {written : Option Nat} {s t : State} (h : t.phase = .idle) :
    ClaimsNoMore p written s t :=
  ⟨fun hrun => (nomatch h.symm.trans hrun), fun huse => (nomatch (outInUse_of_idle h).symm.trans huse),
    fun hlive => nomatch h.symm.trans (liveResult_iff.1 hlive).1⟩

theorem claimsNoMore_afterHostWrite (p : Params) (location : Nat) (v : Byte) (s : State) :
    ClaimsNoMore p (some location) s (afterHostWrite p location v s) := by
  rw [afterHostWrite_eq]
  refine claimsNoMore_outMem fun x hx => ?_
  rw [afterHostWrite_read, if_neg]
  rintro ⟨-, hloc⟩
  exact hx (congrArg some hloc.symm)

theorem engineStep_of_not_run {p : Params} {s t : State} (hstep : EngineStep p s t) (hstop : s.phase ≠ .run) :
    t = s := by
  cases hstep with
  | none => rfl
  | ctrl _ hsel | lit _ hsel | refFail _ _ hsel | ref _ hsel =>
    exact absurd (itemWanted_iff.1 (itemWanted_of_selected hsel)).1 hstop
  | _ => contradiction

/-- A micro-step goes on with the call, or ends it with a result inside its OUT. -/
theorem claimsNoMore_engineStep {p : Params} {written : Option Nat} {s t : State} (hstep : EngineStep p s t)
    (h : Inv s) : ClaimsNoMore p written s t := by
  by_cases hrun : s.phase = .run
  · obtain ⟨hops, -⟩ := operands_engineStep hstep
    have hsize : t.resSize ≤ s.tgtLen := calc
      t.resSize ≤ t.tgtLen := resSize_le (inv_engineStep hstep h)
      _ = s.tgtLen := congrArg StartOperands.tgtLen hops
    exact ⟨fun _ => ⟨hrun, inMem_engineStep hstep⟩, fun _ => ⟨outInUse_of_run hrun, hops⟩,
      fun _ => .inl ⟨hrun, hsize⟩⟩
  · rw [engineStep_of_not_run hstep hrun]
    exact .refl p written s

/-- Only an effective START claims more. -/
theorem claimsNoMore_moveStep {p : Params} {m : Move} {s t : State} (hstep : MoveStep p s m t) (h : Inv s)
    (hignored : ∀ op, m = .start op → s.phase = .run) : ClaimsNoMore p (writeLocation p s m) s t := by
  cases hstep with
  | engine hturn => exact claimsNoMore_engineStep hturn h
  | start op hstop => exact absurd (hignored op rfl) hstop
  | release => exact claimsNoMore_of_idle rfl
  | loadIn bytes hstop =>
    exact ⟨fun hrun => absurd hrun hstop, fun huse => ⟨huse, rfl⟩,
      fun hlive => .inr ⟨hlive, rfl, fun _ _ => rfl⟩⟩
  | writeResult i v =>
    refine claimsNoMore_outMem fun x hx => Memory.read_write_other _ v fun hxi => ?_
    exact hx (by rw [hxi, writeLocation])
  | reset => exact claimsNoMore_of_idle rfl
  | _ => exact .refl ..

/-! ### A step of the platform -/

theorem stopped_of_writeOut {p : Params} {s t : State} {i : Nat} {v : Byte}
    (hstep : MoveStep p s (.writeOut i v) t) : s.phase ≠ .run := by
  cases hstep with
  | writeFree _ _ hfree => exact (outOwner_free_iff.1 hfree).1
  | writeResult _ _ hmay => simp [(hostMayAccessOut_iff.1 hmay).1]

section

variable {n : Nat} {p : Params} {k : Fin n} {pl pl' : Platform n} (hstep : Platform.step p k pl = .next pl')

include hstep

theorem Platform.moveStep_at : MoveStep p (takeMove pl[k]) (nextMove pl[k]) pl'[k] :=
  stepWith_moveStep (Platform.step_at hstep)

/-- An engine beside the one that moves stays as it is or meets a host write. -/
theorem Platform.other_cases {j : Fin n} (hj : j ≠ k) : pl'[j] = pl[j] ∨
    ∃ i v, nextMove pl[k] = .writeOut i v ∧
      pl'[j] = afterHostWrite p (p.locate pl[k].dstBase i) v pl[j] := by
  rw [Platform.step_other hstep hj]
  by_cases hwrite : ∃ i v, nextMove pl[k] = .writeOut i v
  · obtain ⟨i, v, hm⟩ := hwrite
    exact .inr ⟨i, v, hm, Platform.settle_writeOut (agenda_of_nextMove hm nofun) j⟩
  · have hnone : ∀ i v ms, pl[k].agenda ≠ .writeOut i v :: ms := fun i v ms hnext =>
      hwrite ⟨i, v, by rw [nextMove, hnext, List.headD_cons]⟩
    exact .inl (by rw [Platform.settle_other hnone])

theorem Platform.inv_step (h : ∀ j : Fin n, Inv pl[j]) (j : Fin n) : Inv pl'[j] := by
  by_cases hj : j = k
  · subst hj
    exact inv_moveStep (Platform.moveStep_at hstep) (inv_takeMove (h j))
  · obtain hsame | ⟨i, v, -, hwritten⟩ := Platform.other_cases hstep hj
    · exact hsame ▸ h j
    · exact hwritten ▸ afterHostWrite_inv (h j)

/-- No running engine reads the location of a host write that goes through (R50, 93 V4). -/
theorem Platform.notReading_of_step (j : Fin n) :
    NotReading p (writeLocation p pl[k] (nextMove pl[k])) pl[j] := by
  have hmove := Platform.moveStep_at hstep
  cases hm : nextMove pl[k] with
  | writeOut i v =>
    rw [hm] at hmove
    have hstop : (takeMove pl[k]).phase ≠ .run := stopped_of_writeOut hmove
    intro hrun x hx hloc
    have hj : j ≠ k := fun hj => hstop (hj ▸ hrun)
    have hallowed : pl.writeRefusal p k (p.locate pl[k].dstBase i) = none :=
      (Platform.refusal_writeOut (agenda_of_nextMove hm nofun) hstop).symm.trans
        (Platform.step_next_iff.1 hstep).1
    have hreads : inRunningIn p (p.locate pl[k].dstBase i) pl[j] = true :=
      inRunningIn_iff.2 ⟨hrun, x, hx, (Option.some.inj hloc).symm⟩
    exact nomatch ((Platform.writeRefusal_none_iff.1 hallowed).2 j hj).symm.trans hreads
  | _ => exact fun _ _ _ => nofun

/-- Without an effective START no engine claims more. -/
theorem Platform.claimsNoMore_of_step (hinv : Inv pl[k])
    (hignored : ∀ op, nextMove pl[k] = .start op → pl[k].phase = .run) (j : Fin n) :
    ClaimsNoMore p (writeLocation p pl[k] (nextMove pl[k])) pl[j] pl'[j] := by
  by_cases hj : j = k
  · subst hj
    -- the same claims, spelt for the state before the move was taken off its agenda
    obtain ⟨hrunning, hinUse, hresult⟩ :=
      claimsNoMore_moveStep (Platform.moveStep_at hstep) (inv_takeMove hinv) hignored
    exact ⟨hrunning, hinUse, hresult⟩
  · obtain hsame | ⟨i, v, hm, hwritten⟩ := Platform.other_cases hstep hj
    · exact hsame ▸ .refl ..
    · rw [hm, hwritten]
      exact claimsNoMore_afterHostWrite ..

/-- An effective START has passed its own premises and the other engines', and moves no other engine. -/
theorem Platform.launched_of_step {op : StartOperands} (hm : nextMove pl[k] = .start op)
    (hstop : pl[k].phase ≠ .run) : Machine.launchRefusal p pl[k] op = none ∧
      pl.launchRefusal p k op = none ∧ pl'[k] = launch op (takeMove pl[k]) ∧
      ∀ j : Fin n, j ≠ k → pl'[j] = pl[j] := by
  have hmove := Platform.moveStep_at hstep
  rw [hm] at hmove
  obtain ⟨hlaunch, hk⟩ : Machine.launchRefusal p pl[k] op = none ∧ pl'[k] = launch op (takeMove pl[k]) := by
    generalize pl'[k] = t at hmove
    cases hmove with
    | startIgnored _ hrun => exact absurd hrun hstop
    | start _ _ hlaunch => exact ⟨hlaunch, rfl⟩
  have hallowed : pl.launchRefusal p k op = none :=
    (Platform.refusal_start (agenda_of_nextMove hm nofun) hstop hlaunch).symm.trans
      (Platform.step_next_iff.1 hstep).1
  refine ⟨hlaunch, hallowed, hk, fun j hj => (Platform.other_cases hstep hj).resolve_right ?_⟩
  rintro ⟨i, v, hwrite, -⟩
  exact nomatch hm.symm.trans hwrite

/-- An effective START keeps the engines apart: the new call from each other one by the checks, the others as they
were. -/
theorem platformInv_of_launch {op : StartOperands} (h : PlatformInv p pl) (hm : nextMove pl[k] = .start op)
    (hstop : pl[k].phase ≠ .run) : PlatformInv p pl' := by
  obtain ⟨hone, htwo⟩ := platformInv_iff.1 h
  obtain ⟨hlaunch, hallowed, hk, hothers⟩ := Platform.launched_of_step hstep hm hstop
  obtain ⟨hshares, hdisagrees⟩ := Platform.launchRefusal_none_iff.1 hallowed
  have hnew (j : Fin n) (hj : j ≠ k) : Apart p pl'[k] pl'[j] ∧ Apart p pl'[j] pl'[k] := by
    rw [hk, hothers j hj]
    exact apart_launch (hshares j hj) (hdisagrees j hj)
  refine platformInv_iff.2 ⟨fun j => ⟨Platform.inv_step hstep h.engines j, ?_⟩, fun i j hij => ?_⟩
  · by_cases hj : j = k
    · rw [hj, hk]
      exact ownBuffersApart_launch hlaunch
    · rw [hothers j hj]
      exact (hone j).2
  · by_cases hi : i = k
    · subst hi
      exact (hnew j hij.symm).1
    · by_cases hj : j = k
      · subst hj
        exact (hnew i hij).2
      · rw [hothers i hi, hothers j hj]
        exact htwo i j hij

/-- Any other step keeps the engines apart, since none claims more. -/
theorem platformInv_of_no_launch (h : PlatformInv p pl)
    (hignored : ∀ op, nextMove pl[k] = .start op → pl[k].phase = .run) : PlatformInv p pl' := by
  obtain ⟨hone, htwo⟩ := platformInv_iff.1 h
  have hclaims := Platform.claimsNoMore_of_step hstep (h.engines k) hignored
  exact platformInv_iff.2
    ⟨fun j => ⟨Platform.inv_step hstep h.engines j, (hclaims j).ownBuffersApart (hone j).2⟩,
      fun i j hij => (hclaims i).apart (hclaims j) (Platform.notReading_of_step hstep i) (htwo i j hij)⟩

end

/-- Settles O60 (R135, 20_memory.md R46, R50, R52): a step is an effective START or claims no more. -/
theorem everyPlatformStepKeepsTheEnginesApart : Obligations.EveryPlatformStepKeepsTheEnginesApart := by
  intro n p k pl pl' h hstep
  by_cases hlaunch : ∃ op, nextMove pl[k] = .start op ∧ pl[k].phase ≠ .run
  · obtain ⟨op, hm, hstop⟩ := hlaunch
    exact platformInv_of_launch hstep h hm hstop
  · push Not at hlaunch
    exact platformInv_of_no_launch hstep h hlaunch

end Sys2Proof.Machine
